-- ==== Sys2Proof/Word.lean ====
section
/-! DEFINITION. Words, bytes and text: the values the spec's rules speak of (00_scope R6, 30_encoding R81).

A register, a memory cell, an operand value and the pc are words: XLEN-bit two's complement patterns read as signed
integers. XLEN is 32 for this hardware (R5, D1; log 1). -/

namespace Sys2Proof

/-- XLEN, the width in bits of a register, a cell, an operand value and the pc (00_scope R5: 32 for this hardware). -/
abbrev xlen : Nat := 32

/-- A word (R6): the pattern of `xlen` bits; its value as the spec's signed integer is `BitVec.toInt`. -/
abbrev Word := BitVec 32

/-- One character of a program line (30_encoding R81). -/
abbrev Byte := BitVec 8

/-- One program line: a finite sequence of characters, position 0 first (R81). -/
abbrev Line := List Byte

/-- A maximal run of non-whitespace characters of a line (R82). -/
abbrev Token := List Byte

/-- INT_MIN of R6. -/
def intMin : Int := -2147483648

/-- INT_MAX of R6. -/
def intMax : Int := 2147483647

/-- `wrap(v)` of R6: the unique word congruent to `v` modulo 2^XLEN. -/
def wrap (v : Int) : Word := BitVec.ofInt 32 v

end Sys2Proof
end

