-- ==== Sys2Proof/Config.lean ====
section
/-! DEFINITION. What is fixed for one core: the implementation parameters of 00_scope R5.

`XLEN` is in Word.lean. The three parameters the spec leaves OPEN and gives a second value (FIRST_OPERAND_CHECK, ERR_POLICY,
LINE_MAX) are data, so that a statement about every state speaks of every setting; `Params.hardware` is this
hardware's setting (log 12, log 13). The spec leaves no value free, so there is no opaque constant. -/

namespace Sys2Proof

/-- `NREG` (R5): the number of general registers. -/
def numRegs : Nat := 4

/-- `MEMSIZE` (R5): the number of memory cells, indices 0..127. -/
def memSize : Nat := 128

/-- `SP_INIT` (R5): the stack pointer at reset. -/
def spInit : Int := 127

/-- `PC_INIT` (R5): the program counter at reset. -/
def pcInit : Word := 0

/-- `FIRST_OPERAND_CHECK` (R5, 40 R120, D5): which opcodes demand a register name as their first operand token. -/
inductive FirstOperandCheck where
  | perOpcode  -- ADD, SUB, LOAD and POP only
  | all        -- all seven
  deriving DecidableEq, Repr

/-- `ERR_POLICY` (R5, 40 R127, D10): what the sequencer does after an instruction raises an error. -/
inductive ErrPolicy where
  | halt  -- latch the record and stop
  | skip  -- report it and go on at the next line
  deriving DecidableEq, Repr

/-- The parameters fixed when a core is constructed (R5), its program apart. -/
structure Params where
  firstOperandCheck : FirstOperandCheck
  errPolicy : ErrPolicy
  /-- `LINE_MAX`: `none` is unbounded. -/
  lineMax : Option Nat
  deriving DecidableEq, Repr

/-- The values this hardware takes (R5). -/
def Params.hardware : Params :=
  { firstOperandCheck := .perOpcode, errPolicy := .halt, lineMax := none }

end Sys2Proof
end

