-- ==== Sys2Proof/Syntax.lean ====
section
/-! DEFINITION. The decoded instruction (30_encoding R92): one constructor per row of the opcode table (R84), over typed
operands, and the named errors an instruction can raise (60_exceptions R210). -/

namespace Sys2Proof

/-- The four general registers, named by the fixed identifiers `R0..R3` (10_state R21). -/
inductive Reg where
  | r0 | r1 | r2 | r3
  deriving DecidableEq, Repr

/-- An operand that may be a register or an integer literal: `Reg(i)` or `Lit(v)` of R92. -/
inductive Operand where
  | reg (r : Reg)
  | lit (v : Word)
  deriving DecidableEq, Repr

/-- The seven opcodes (R84). -/
inductive Opcode where
  | add | sub | store | load | push | pop | jmp
  deriving DecidableEq, Repr

/-- A decoded instruction, in the order of the opcode table. Operands stand in token order. -/
inductive Instr where
  | add (dest : Reg) (src : Operand)
  | sub (dest : Reg) (src : Operand)
  | store (dest src : Operand)
  | load (dest : Reg) (src : Operand)
  | push (src : Operand)
  | pop (dest : Reg)
  | jmp (target : Operand)
  deriving DecidableEq, Repr

/-- The errors of 60_exceptions R210, each with the `info` its row records. -/
inductive ExecError where
  /-- Code 1. Any line; records the whole line (R211). -/
  | malformedInstruction (line : Line)
  /-- Code 2. Any line; records the first token (R212). -/
  | unknownOpcode (op : Token)
  /-- Code 3. ADD, SUB, LOAD, POP, or all seven when FIRST_OPERAND_CHECK = all; records the second token (R213). -/
  | invalidRegister (name : Token)
  /-- Code 4. ADD, SUB, STORE, LOAD, PUSH, JMP; records the offending operand token (R214). -/
  | invalidOperand (token : Token)
  /-- Code 5. STORE and LOAD; records the index (R215). -/
  | memoryOutOfBounds (index : Word)
  /-- Code 6. PUSH; records `sp` (R216). -/
  | stackOverflow (sp : Int)
  /-- Code 7. POP; records `sp` (R217). -/
  | stackUnderflow (sp : Int)
  /-- Code 8. The fetch of a step; records `pc` (R218). -/
  | pcOutOfRange (pc : Word)
  deriving DecidableEq, Repr

end Sys2Proof
end

