-- ==== Sys2Proof/WellFormed.lean ====
section
/-! DEFINITION. Which decoded instructions and which programs a core with given parameters admits.

The types of Syntax.lean already hold every operand the encoding admits. What is left is the first operand of STORE, PUSH
and JMP under FIRST_OPERAND_CHECK = all (40 R120), and the bounds on a program (00_scope R5). -/

namespace Sys2Proof

/-- Whether an operand is a register. -/
def Operand.isRegister : Operand → Bool
  | .reg _ => true
  | .lit _ => false

/-- `true` exactly when some line decodes to the instruction under the setting (R120): with `all`, the first operand of
every opcode is a register. -/
def Instr.wf (check : FirstOperandCheck) : Instr → Bool
  | .add _ _ | .sub _ _ | .load _ _ | .pop _ => true
  | .store dest _ => check == .perOpcode || dest.isRegister
  | .push src => check == .perOpcode || src.isRegister
  | .jmp target => check == .perOpcode || target.isRegister

/-- The bound on the number of lines, `0 <= N <= 2^(XLEN-1) - 1` (R5, D17). -/
def programLengthOk (n : Nat) : Bool := (n : Int) ≤ intMax

/-- The bound on one line, at most `LINE_MAX` characters (R5, R81, D21). -/
def lineLengthOk (lineMax : Option Nat) (line : Line) : Bool :=
  match lineMax with
  | none => true
  | some bound => line.length ≤ bound

/-- The programs a core can be constructed with (R5). -/
def programWf (params : Params) (prog : List Line) : Bool :=
  programLengthOk prog.length && prog.all (lineLengthOk params.lineMax)

end Sys2Proof
end

