-- ==== Sys2Proof/Decode.lean ====
section
/-! DEFINITION. From a line of text to an instruction and back (30_encoding R80 to R94; 40 R117 to R121).

`decode` is total: every byte string is an instruction or one named error, the first of the fixed order of R117.
It depends on no machine state (R92). `encode` writes the canonical line of an instruction from the same tables. -/

namespace Sys2Proof

/-! ## Tokenization (R81, R82) -/

/-- The six whitespace characters (R81). -/
def isSpace (c : Byte) : Bool :=
  c == 0x09 || c == 0x0A || c == 0x0B || c == 0x0C || c == 0x0D || c == 0x20

/-- A run of characters put before later tokens; an empty run is no token (R82). -/
def closeRun (run : Token) (later : List Token) : List Token :=
  match run with
  | [] => later
  | c :: cs => (c :: cs) :: later

/-- The run of non-whitespace characters a line begins with, and the tokens after it. -/
def splitRun : Line → Token × List Token
  | [] => ([], [])
  | c :: cs =>
    match splitRun cs with
    | (run, later) => if isSpace c then ([], closeRun run later) else (c :: run, later)

/-- `tokens(line)` of R82. -/
def tokens (line : Line) : List Token :=
  closeRun (splitRun line).1 (splitRun line).2

/-! ## The opcode map (R84, R93) -/

/-- The ASCII bytes of a mnemonic (R93). -/
def Opcode.mnemonic : Opcode → Token
  | .add => [0x41, 0x44, 0x44]
  | .sub => [0x53, 0x55, 0x42]
  | .store => [0x53, 0x54, 0x4F, 0x52, 0x45]
  | .load => [0x4C, 0x4F, 0x41, 0x44]
  | .push => [0x50, 0x55, 0x53, 0x48]
  | .pop => [0x50, 0x4F, 0x50]
  | .jmp => [0x4A, 0x4D, 0x50]

/-- The operand count of an opcode (R84). -/
def Opcode.arity : Opcode → Nat
  | .add | .sub | .store | .load => 2
  | .push | .pop | .jmp => 1

/-- The opcodes, in the order of R84. -/
def opcodes : List Opcode := [.add, .sub, .store, .load, .push, .pop, .jmp]

/-- The opcode a first token selects, by exact equality (R84); `none` is an unknown opcode. -/
def opcodeOf (t : Token) : Option Opcode := opcodes.find? fun op => op.mnemonic == t

/-- `needsRegFirst(op)` of R120. -/
def needsRegFirst (check : FirstOperandCheck) (op : Opcode) : Bool :=
  match check with
  | .all => true
  | .perOpcode =>
    match op with
    | .add | .sub | .load | .pop => true
    | .store | .push | .jmp => false

/-! ## Operand tokens (R85, R86) -/

/-- The two characters of a register name (R85, R93). -/
def Reg.name : Reg → Token
  | .r0 => [0x52, 0x30]
  | .r1 => [0x52, 0x31]
  | .r2 => [0x52, 0x32]
  | .r3 => [0x52, 0x33]

/-- The four registers (10_state R21). -/
def registers : List Reg := [.r0, .r1, .r2, .r3]

/-- `isReg` and `regIndex` of R85 in one: the register a token names, if it names one. -/
def regOf (t : Token) : Option Reg := registers.find? fun r => r.name == t

/-- The value of a decimal digit character. -/
def digitVal (c : Byte) : Option Nat :=
  if 0x30 ≤ c.toNat ∧ c.toNat ≤ 0x39 then some (c.toNat - 0x30) else none

/-- The value of a string of decimal digits, read after digits worth `acc`; `none` if a character is no digit. -/
def numeralFrom : List Byte → Nat → Option Nat
  | [], acc => some acc
  | c :: cs, acc =>
    match digitVal c with
    | none => none
    | some d => numeralFrom cs (10 * acc + d)

/-- The integer a token of the grammar `-?[0-9]+` denotes, whatever its size (R86 (a)). -/
def literalValue : Token → Option Int
  | [] => none
  | c :: cs =>
    if c = 0x2D then
      match cs with
      | [] => none
      | d :: ds => (numeralFrom (d :: ds) 0).map fun n : Nat => -(n : Int)
    else (numeralFrom (c :: cs) 0).map fun n : Nat => (n : Int)

/-- `isInt` and `intVal` of R86 in one: the word a literal denotes; `none` if the token is no literal or its value is no
word. -/
def intVal (t : Token) : Option Word :=
  match literalValue t with
  | none => none
  | some v => if intMin ≤ v ∧ v ≤ intMax then some (wrap v) else none

/-- The operand a register-or-literal token stands for; the error is `resolve`'s (R123). -/
def operandOf (t : Token) : Except ExecError Operand :=
  match regOf t with
  | some r => .ok (.reg r)
  | none =>
    match intVal t with
    | some v => .ok (.lit v)
    | none => .error (.invalidOperand t)

/-- The register a destination token stands for; the error is check 3's (R120). -/
def destOf (t : Token) : Except ExecError Reg :=
  match regOf t with
  | some r => .ok r
  | none => .error (.invalidRegister t)

/-! ## The decoder -/

/-- Format T2 with a register first (ADD, SUB, LOAD). -/
def decodeRegOperand (mk : Reg → Operand → Instr) (a b : Token) : Except ExecError Instr :=
  match destOf a with
  | .error e => .error e
  | .ok d =>
    match operandOf b with
    | .error e => .error e
    | .ok src => .ok (mk d src)

/-- Format T2 with two register-or-literal operands (STORE), the first token's error before the second's (R124). -/
def decodeOperands (mk : Operand → Operand → Instr) (a b : Token) : Except ExecError Instr :=
  match operandOf a with
  | .error e => .error e
  | .ok dest =>
    match operandOf b with
    | .error e => .error e
    | .ok src => .ok (mk dest src)

/-- Format T1 with a register-or-literal operand (PUSH, JMP). -/
def decodeOperand (mk : Operand → Instr) (a : Token) : Except ExecError Instr :=
  match operandOf a with
  | .error e => .error e
  | .ok v => .ok (mk v)

/-- Format T1 with a register (POP). -/
def decodeReg (mk : Reg → Instr) (a : Token) : Except ExecError Instr :=
  match destOf a with
  | .error e => .error e
  | .ok d => .ok (mk d)

/-- The decoding of one format's operand tokens, after the four checks; a count that fits no format is malformed. -/
def dispatchTokens (line : Line) (op : Opcode) (operands : List Token) : Except ExecError Instr :=
  match op, operands with
  | .add, [a, b] => decodeRegOperand .add a b
  | .sub, [a, b] => decodeRegOperand .sub a b
  | .store, [a, b] => decodeOperands .store a b
  | .load, [a, b] => decodeRegOperand .load a b
  | .push, [a] => decodeOperand .push a
  | .pop, [a] => decodeReg .pop a
  | .jmp, [a] => decodeOperand .jmp a
  | _, _ => .error (.malformedInstruction line)

/-- The decoding of a line: the checks of R117 in their order, then the operand tokens (R88, R92). -/
def decode (check : FirstOperandCheck) (line : Line) : Except ExecError Instr :=
  match tokens line with
  | [] => .error (.malformedInstruction line)
  | [_] => .error (.malformedInstruction line)
  | t0 :: t1 :: rest =>
    match opcodeOf t0 with
    | none => .error (.unknownOpcode t0)
    | some op =>
      if needsRegFirst check op && (regOf t1).isNone then .error (.invalidRegister t1)
      else if (t1 :: rest).length ≠ op.arity then .error (.malformedInstruction line)
      else dispatchTokens line op (t1 :: rest)

/-! ## The encoder -/

/-- The character of a decimal digit. -/
def digitByte (d : Nat) : Byte := BitVec.ofNat 8 (0x30 + d)

/-- The decimal digits of `n`, most significant first, at most `fuel` of them. -/
def decimal : Nat → Nat → List Byte
  | 0, _ => []
  | fuel + 1, n => if n < 10 then [digitByte n] else decimal fuel (n / 10) ++ [digitByte (n % 10)]

/-- The canonical literal of a word (R86): no leading zeros, a minus sign exactly when negative; ten digits suffice. -/
def literalToken (v : Word) : Token :=
  if v.toInt < 0 then 0x2D :: decimal 10 v.toInt.natAbs else decimal 10 v.toInt.natAbs

/-- The token of an operand. -/
def Operand.token : Operand → Token
  | .reg r => r.name
  | .lit v => literalToken v

/-- The opcode of an instruction. -/
def Instr.opcode : Instr → Opcode
  | .add _ _ => .add
  | .sub _ _ => .sub
  | .store _ _ => .store
  | .load _ _ => .load
  | .push _ => .push
  | .pop _ => .pop
  | .jmp _ => .jmp

/-- The operand tokens of an instruction, in token order (R84, R91). -/
def Instr.operandTokens : Instr → List Token
  | .add d s | .sub d s | .load d s => [d.name, s.token]
  | .store d s => [d.token, s.token]
  | .push s => [s.token]
  | .pop d => [d.name]
  | .jmp t => [t.token]

/-- Tokens written as a line, each after one space. -/
def spaced : List Token → Line
  | [] => []
  | t :: ts => (0x20 : Byte) :: (t ++ spaced ts)

/-- The canonical line of an instruction: `OPCODE DEST [SRC]`, one space between tokens (R80, R91). -/
def encode (i : Instr) : Line := i.opcode.mnemonic ++ spaced i.operandTokens

/-! ## The opcode table's numbers -/

/-- `k` bytes of a number, position 0 most significant: the table's `match` is "bytes as one big-endian number" (R93). -/
def bytesOfNumber : Nat → Nat → Line
  | 0, _ => []
  | k + 1, w => bytesOfNumber k (w / 256) ++ [BitVec.ofNat 8 w]

/-- The line a number of the opcode table stands for (log 9). The table numbers the first token only; an operand it gives no
bits is the operand of index zero, the token `R0`, which every operand position of every setting accepts. -/
def tableLine (nbits w : Nat) : Line :=
  let bytes := bytesOfNumber (nbits / 8) w
  match opcodeOf bytes with
  | none => bytes
  | some op => bytes ++ spaced (List.replicate op.arity Reg.r0.name)

/-- The instruction the decoder reads from a number of the opcode table, with this hardware's FIRST_OPERAND_CHECK. -/
def decodeTableWord (nbits w : Nat) : Option Instr :=
  match decode Params.hardware.firstOperandCheck (tableLine nbits w) with
  | .ok i => some i
  | .error _ => none

end Sys2Proof
end

