-- ==== Sys2Proof/Machine/State.lean ====
section
/-! DEFINITION. The whole state of the core (10_state R20), the reasons a step can stop, and the state after reset (R36).

State is the spec's record and, beside it, what construction fixes for the life of the core: the program and the parameters
(R5, R30, R250), which no step changes (log 2). -/

namespace Sys2Proof.Machine

/-- The register file, exactly the four registers R0..R3 (10_state R21). -/
structure RegFile where
  r0 : Word
  r1 : Word
  r2 : Word
  r3 : Word
  deriving DecidableEq, Repr

/-- The condition flag latches (10_state R26, R27). -/
structure Flags where
  zero : Bool
  negative : Bool
  carry : Bool
  deriving DecidableEq, Repr

/-- The data memory: the cells that hold another value than 0, by index, strictly rising (`Memory.wf` in Ops.lean). An
unlisted cell reads as 0, its reset contents (R29, R36). The unit of addressing is a whole word (20_memory R51; log 4). -/
abbrev Memory := List (Nat × Word)

/-- An error record (60_exceptions R210): the error with its `info`, and the index of the line. The code and the kind are
views of the error (log 14). -/
structure ErrorRecord where
  error : ExecError
  pc : Word
  deriving DecidableEq, Repr

/-- The state of the core. -/
structure State where
  /-- `x[0..3]` -/
  x : RegFile
  /-- `MEM[0..127]` -/
  mem : Memory
  /-- `pc`, the index of the next line (R23) -/
  pc : Word
  /-- `sp`, the cell the next PUSH will write (R25) -/
  sp : Int
  /-- `ZERO`, `NEGATIVE`, `CARRY` -/
  flags : Flags
  /-- `err`, the error latch (R31) -/
  err : Option ErrorRecord
  /-- `PROG`; its length is `N` -/
  prog : List Line
  /-- the parameters fixed at construction -/
  params : Params
  deriving DecidableEq, Repr

/-- The status of the core, a function of the state (40 R112). -/
inductive Status where
  | running | halted | faulted
  deriving DecidableEq, Repr

/-- Why `step` answers no next state: "`Step` is enabled only when the status is `RUNNING`" (40 R112; log 5). -/
inductive Fault where
  /-- Raised by `step` when the status is HALTED: the run has ended normally (R115). Safe: the spec gives no step there. -/
  | runEnded
  /-- Raised by `step` when the status is FAULTED: an earlier step latched an error (R127, R221). Safe: the spec gives no
  step there. -/
  | coreFaulted
  deriving DecidableEq, Repr

/-- Why the model gives an instruction no meaning. -/
inductive Refusal where
  /-- Raised by an arm of `exec` whose instruction has no meaning yet; no arm does. Safe: nothing is claimed. -/
  | notModelled (mnemonic : String)
  deriving DecidableEq, Repr

/-- What `Exec` returns (40 R117): the changed copy of the state and whether control flow was altered, or the error. An
error carries no state, since none is kept (R125). -/
inductive ExecResult where
  | ok (jumped : Bool) (s : State)
  | error (e : ExecError)
  deriving DecidableEq, Repr

/-- What a caller of `Exec(line)` is given (40 R117, R130): whether control flow was altered, or the error's record. -/
inductive ExecReturn where
  | ok (jumped : Bool)
  | error (r : ErrorRecord)
  deriving DecidableEq, Repr

/-- What `Step` returns to the host (40 R111). -/
inductive StepReturn where
  | ok
  | error (r : ErrorRecord)
  | refused (status : Status)
  deriving DecidableEq, Repr

/-- The kinds of error (60_exceptions R210). -/
inductive ErrorKind where
  | malformedInstruction | unknownOpcode | invalidRegister | invalidOperand
  | memoryOutOfBounds | stackOverflow | stackUnderflow | pcOutOfRange
  deriving DecidableEq, Repr

/-- The `info` of an error record: text, or a number (60_exceptions R210). -/
inductive ErrorInfo where
  | text (bytes : List Byte)
  | number (v : Int)
  deriving DecidableEq, Repr

/-- What `Observe()` returns (40 R129). `mem` lists all 128 cells, index 0 first. -/
structure Surface where
  x : RegFile
  mem : List Word
  pc : Word
  sp : Int
  flags : Flags
  err : Option ErrorRecord
  status : Status
  deriving DecidableEq, Repr

/-- `Construct(PROG)`: the reset state of a core with the given parameters and program (10_state R36; 70 R250, R251). -/
def State.construct (params : Params) (prog : List Line) : State :=
  { x := { r0 := 0, r1 := 0, r2 := 0, r3 := 0 }
    mem := []
    pc := pcInit
    sp := spInit
    flags := { zero := false, negative := false, carry := false }
    err := none
    prog := prog
    params := params }

/-- The machine right after reset, with no program placed in it (log 2). -/
def State.reset : State := State.construct Params.hardware []

end Sys2Proof.Machine
end

