-- ==== Sys2Proof/Machine/Ops.lean ====
section
/-! DEFINITION. The named operations over registers, memory and the rest of the state, and the two ways an instruction ends:
committing its result and taking an error (40 R113, R126, R127). -/

namespace Sys2Proof.Machine

/-! ## Registers (10_state R21) -/

/-- `x[i]` -/
def RegFile.get (x : RegFile) : Reg → Word
  | .r0 => x.r0
  | .r1 => x.r1
  | .r2 => x.r2
  | .r3 => x.r3

/-- `x[i] <- v` -/
def RegFile.set (x : RegFile) (r : Reg) (v : Word) : RegFile :=
  match r with
  | .r0 => { x with r0 := v }
  | .r1 => { x with r1 := v }
  | .r2 => { x with r2 := v }
  | .r3 => { x with r3 := v }

/-! ## Memory (20_memory R51, R52) -/

/-- The canonical form from index `lo` on: indices strictly rising and inside 0..127, no listed zero. -/
def Memory.wfFrom (lo : Nat) : Memory → Bool
  | [] => true
  | (a, v) :: rest => lo ≤ a && a < memSize && v != 0 && Memory.wfFrom (a + 1) rest

/-- The canonical form of a memory: equal memories are equal lists. -/
def Memory.wf (m : Memory) : Bool := Memory.wfFrom 0 m

/-- `MEM[a]`: an unlisted cell holds 0 (10_state R29). -/
def Memory.read : Memory → Nat → Word
  | [], _ => 0
  | (b, v) :: rest, a => if b = a then v else Memory.read rest a

/-- `MEM[a] <- v`, keeping the canonical form. -/
def Memory.write : Memory → Nat → Word → Memory
  | [], a, v => if v = 0 then [] else [(a, v)]
  | (b, w) :: rest, a, v =>
    if a < b then (if v = 0 then (b, w) :: rest else (a, v) :: (b, w) :: rest)
    else if a = b then (if v = 0 then rest else (a, v) :: rest)
    else (b, w) :: Memory.write rest a v

/-- The range test of the memory arbiter: the cell an address names, if `0 <= a <= 127` (R52, R65). -/
def cellOf (a : Int) : Option Nat := if 0 ≤ a ∧ a < memSize then some a.toNat else none

/-! ## One field at a time -/

/-- Register `r` of a state. -/
def State.reg (s : State) (r : Reg) : Word := s.x.get r

/-- Cell `a` of a state. -/
def State.cell (s : State) (a : Nat) : Word := s.mem.read a

def State.setReg (s : State) (r : Reg) (v : Word) : State := { s with x := s.x.set r v }

def State.setCell (s : State) (a : Nat) (v : Word) : State := { s with mem := s.mem.write a v }

def State.setPc (s : State) (v : Word) : State := { s with pc := v }

def State.setSp (s : State) (v : Int) : State := { s with sp := v }

def State.setFlags (s : State) (f : Flags) : State := { s with flags := f }

def State.setErr (s : State) (e : Option ErrorRecord) : State := { s with err := e }

def State.setProg (s : State) (p : List Line) : State := { s with prog := p }

/-! ## The memory arbiter (20_memory R65): the range test, then at most one access -/

/-- A read at address `a`; `e` is the requester's own error (R53). -/
def memRead (s : State) (a : Int) (e : ExecError) : Except ExecError Word :=
  match cellOf a with
  | some k => .ok (s.cell k)
  | none => .error e

/-- A write of `v` at address `a`; `e` is the requester's own error (R53). -/
def memWrite (s : State) (a : Int) (v : Word) (e : ExecError) : Except ExecError State :=
  match cellOf a with
  | some k => .ok (s.setCell k v)
  | none => .error e

/-! ## Errors: taking one, and its views (60_exceptions R210, R220, R221)

There is no return from an error and nothing to restore (R222), so no operation stands beside `raiseError`. -/

/-- The record of error `e` arisen in state `s` (R210): its `pc` is the current `pc`, in a step the index of the line being
executed, in `Exec` on a line outside the program (40 R130) whatever `pc` is. -/
def errorRecord (s : State) (e : ExecError) : ErrorRecord := { error := e, pc := s.pc }

/-- Taking an error in state `s` (40 R127). Nothing the instruction did is kept (R125). With `halt` the record is latched
and `pc` stays at the failing line; with `skip` the error is only reported and the core goes on at the next line. -/
def raiseError (s : State) (e : ExecError) : State :=
  match s.params.errPolicy with
  | .halt => s.setErr (some (errorRecord s e))
  | .skip => s.setPc (s.pc + 1)

/-- The end of an instruction cycle begun in state `s` (40 R113): commit the copy, adding 1 to `pc` unless the instruction
jumped (R126), or take the error (R127). -/
def complete (s : State) : ExecResult → State
  | .ok true t => t
  | .ok false t => t.setPc (t.pc + 1)
  | .error e => raiseError s e

/-- The kind of an error (R210). -/
def errorKind : ExecError → ErrorKind
  | .malformedInstruction _ => .malformedInstruction
  | .unknownOpcode _ => .unknownOpcode
  | .invalidRegister _ => .invalidRegister
  | .invalidOperand _ => .invalidOperand
  | .memoryOutOfBounds _ => .memoryOutOfBounds
  | .stackOverflow _ => .stackOverflow
  | .stackUnderflow _ => .stackUnderflow
  | .pcOutOfRange _ => .pcOutOfRange

/-- The numeric code of a kind (R210, D15). -/
def ErrorKind.code : ErrorKind → Nat
  | .malformedInstruction => 1
  | .unknownOpcode => 2
  | .invalidRegister => 3
  | .invalidOperand => 4
  | .memoryOutOfBounds => 5
  | .stackOverflow => 6
  | .stackUnderflow => 7
  | .pcOutOfRange => 8

/-- The `info` of an error (R210). -/
def errorInfo : ExecError → ErrorInfo
  | .malformedInstruction line => .text line
  | .unknownOpcode op => .text op
  | .invalidRegister name => .text name
  | .invalidOperand token => .text token
  | .memoryOutOfBounds index => .number index.toInt
  | .stackOverflow sp => .number sp
  | .stackUnderflow sp => .number sp
  | .pcOutOfRange pc => .number pc.toInt

/-- The error code of the latch: 0 is no error (R210). -/
def errCode : Option ErrorRecord → Nat
  | none => 0
  | some r => (errorKind r.error).code

end Sys2Proof.Machine
end

