-- ==== Sys2Proof/Machine/Flags.lean ====
section
/-! DEFINITION. The flag latch (10_state R26, R27; 41 R151). ADD and SUB are the only instructions that call it. -/

namespace Sys2Proof.Machine

/-- Flag generation from a result word: a sticky OR into ZERO and NEGATIVE; CARRY is not written (R151, D22). -/
def Flags.latch (f : Flags) (r : Word) : Flags :=
  { zero := f.zero || r == 0
    negative := f.negative || r.toInt < 0
    carry := f.carry }

/-- The packed view of the flags, for the state surface only: bit 0 ZERO, bit 1 NEGATIVE, bit 2 CARRY (10_state R28). -/
def Flags.packed (f : Flags) : BitVec 3 :=
  BitVec.ofBool f.carry ++ (BitVec.ofBool f.negative ++ BitVec.ofBool f.zero)

end Sys2Proof.Machine
end

