-- ==== Sys2Proof/Machine/Operands.lean ====
section
/-! DEFINITION. Operand resolution (40 R123): a register's current value, or a literal's. It reads state and writes none. -/

namespace Sys2Proof.Machine

/-- The value of a decoded operand. -/
def resolve (s : State) : Operand → Word
  | .reg r => s.reg r
  | .lit v => v

/-- `resolve(t)` on an operand token, as R123 writes it. The decoder settles which case holds (R92); Laws/Exec.lean proves that
the two agree. -/
def resolveToken (s : State) (t : Token) : Except ExecError Word :=
  match regOf t with
  | some r => .ok (s.reg r)
  | none =>
    match intVal t with
    | some v => .ok v
    | none => .error (.invalidOperand t)

end Sys2Proof.Machine
end

