-- ==== Sys2Proof/Machine/Arithmetic.lean ====
section
/-! DEFINITION. The ALU, ADD and SUB (41_arithmetic). An `…Effect` is the rule's pseudocode, what `Exec` does; an `exec…` is
the whole cycle of the decoded instruction, with the commit and the `pc` update (log 8). -/

namespace Sys2Proof.Machine

/-- `add(a, b)` of R150. -/
def aluAdd (a b : Word) : Word := wrap (a.toInt + b.toInt)

/-- `sub(a, b)` of R150. -/
def aluSub (a b : Word) : Word := wrap (a.toInt - b.toInt)

/-- The ALU's result to a register, its conditions to the flag latch (R151). -/
def writeResult (s : State) (d : Reg) (r : Word) : State :=
  (s.setReg d r).setFlags (s.flags.latch r)

/-- ADD (R152): `x[d] <- wrap(x[d] + b)`, where `b` is read before the write. -/
def addEffect (dest : Reg) (src : Operand) (s : State) : ExecResult :=
  .ok false (writeResult s dest (aluAdd (s.reg dest) (resolve s src)))

/-- SUB (R153): `x[d] <- wrap(x[d] - b)`. -/
def subEffect (dest : Reg) (src : Operand) (s : State) : ExecResult :=
  .ok false (writeResult s dest (aluSub (s.reg dest) (resolve s src)))

/-- The cycle of ADD. -/
def execAdd (dest : Reg) (src : Operand) (s : State) : Host.Outcome State Fault Refusal :=
  .next (complete s (addEffect dest src s))

/-- The cycle of SUB. -/
def execSub (dest : Reg) (src : Operand) (s : State) : Host.Outcome State Fault Refusal :=
  .next (complete s (subEffect dest src s))

end Sys2Proof.Machine
end

