-- ==== Sys2Proof/Machine/Control.lean ====
section
/-! DEFINITION. JMP (44_control): the only control transfer, to an absolute line index (R201). -/

namespace Sys2Proof.Machine

/-- JMP (R200): `pc` takes the target itself, tested only by the next fetch. -/
def jmpEffect (target : Operand) (s : State) : ExecResult :=
  .ok true (s.setPc (resolve s target))

/-- The cycle of JMP. -/
def execJmp (target : Operand) (s : State) : Host.Outcome State Fault Refusal :=
  .next (complete s (jmpEffect target s))

end Sys2Proof.Machine
end

