-- ==== Sys2Proof/Machine/LoadStore.lean ====
section
/-! DEFINITION. STORE and LOAD (42_load_store). One addressing mode: the address is the value of an operand (R170). -/

namespace Sys2Proof.Machine

/-- STORE (R171): the first operand is the address, the second the data. -/
def storeEffect (dest src : Operand) (s : State) : ExecResult :=
  match memWrite s (resolve s dest).toInt (resolve s src) (.memoryOutOfBounds (resolve s dest)) with
  | .error e => .error e
  | .ok t => .ok false t

/-- LOAD (R172): the second operand is the address. It writes no flag. -/
def loadEffect (dest : Reg) (src : Operand) (s : State) : ExecResult :=
  match memRead s (resolve s src).toInt (.memoryOutOfBounds (resolve s src)) with
  | .error e => .error e
  | .ok v => .ok false (s.setReg dest v)

/-- The cycle of STORE. -/
def execStore (dest src : Operand) (s : State) : Host.Outcome State Fault Refusal :=
  .next (complete s (storeEffect dest src s))

/-- The cycle of LOAD. -/
def execLoad (dest : Reg) (src : Operand) (s : State) : Host.Outcome State Fault Refusal :=
  .next (complete s (loadEffect dest src s))

end Sys2Proof.Machine
end

