-- ==== Sys2Proof/Machine/Stack.lean ====
section
/-! DEFINITION. PUSH and POP (43_stack): an empty-descending stack in the data memory (R185). The range test is the arbiter's
0..127 (20_memory R53, R65), which on -1 <= sp <= 127 is the rules' one-sided test (R188; log 7). -/

namespace Sys2Proof.Machine

/-- PUSH (R186): store at `sp`, then decrement. -/
def pushEffect (src : Operand) (s : State) : ExecResult :=
  match memWrite s s.sp (resolve s src) (.stackOverflow s.sp) with
  | .error e => .error e
  | .ok t => .ok false (t.setSp (s.sp - 1))

/-- POP (R187): increment, then load from the new `sp`. The cell keeps its value (20_memory R54). -/
def popEffect (dest : Reg) (s : State) : ExecResult :=
  match memRead s (s.sp + 1) (.stackUnderflow s.sp) with
  | .error e => .error e
  | .ok v => .ok false ((s.setSp (s.sp + 1)).setReg dest v)

/-- The cycle of PUSH. -/
def execPush (src : Operand) (s : State) : Host.Outcome State Fault Refusal :=
  .next (complete s (pushEffect src s))

/-- The cycle of POP. -/
def execPop (dest : Reg) (s : State) : Host.Outcome State Fault Refusal :=
  .next (complete s (popEffect dest s))

end Sys2Proof.Machine
end

