-- ==== Sys2Proof/Machine/Dispatch.lean ====
section
/-! DEFINITION. One arm per row of the opcode table (30_encoding R84; 40 R122). -/

namespace Sys2Proof.Machine

def exec (i : Instr) (s : State) : Host.Outcome State Fault Refusal :=
  match i with
  | .add dest src => Sys2Proof.Machine.execAdd dest src s
  | .sub dest src => Sys2Proof.Machine.execSub dest src s
  | .store dest src => Sys2Proof.Machine.execStore dest src s
  | .load dest src => Sys2Proof.Machine.execLoad dest src s
  | .push src => Sys2Proof.Machine.execPush src s
  | .pop dest => Sys2Proof.Machine.execPop dest s
  | .jmp target => Sys2Proof.Machine.execJmp target s

end Sys2Proof.Machine
end

