-- ==== Sys2Proof/Machine/Sequencer.lean ====
section
/-! DEFINITION. The sequencer (40_core_operation): status, fetch, `Exec` on a line, what `Exec` and `Step` return, and the host's
read-only view. Step.lean puts them together. -/

namespace Sys2Proof.Machine

/-- The status, with `N` the length of the program (R112). -/
def status (s : State) : Status :=
  if s.err.isSome then .faulted
  else if (s.prog.length : Int) ≤ s.pc.toInt then .halted
  else .running

/-- `Fetch(p)` (20_memory R66). It is called only with `p < N` (R114); elsewhere the line is empty (log 15). -/
def fetchLine (s : State) (p : Nat) : Line := s.prog.getD p []

/-- The fetch and the decoding of the line at `pc`, for a core whose status is RUNNING: a negative `pc` is an error before
anything is fetched (R114, R116). -/
def fetchDecode (s : State) : Except ExecError Instr :=
  if s.pc.toInt < 0 then .error (.pcOutOfRange s.pc)
  else decode s.params.firstOperandCheck (fetchLine s s.pc.toNat)

/-- What an instruction does to the state, the commit apart: the handlers `Exec` dispatches to (R117, R122). -/
def effectOf (i : Instr) (s : State) : ExecResult :=
  match i with
  | .add dest src => addEffect dest src s
  | .sub dest src => subEffect dest src s
  | .store dest src => storeEffect dest src s
  | .load dest src => loadEffect dest src s
  | .push src => pushEffect src s
  | .pop dest => popEffect dest s
  | .jmp target => jmpEffect target s

/-- `Exec(line)` (R117): defined for every line and every state, whatever `pc` and the program are (R130). -/
def execLine (line : Line) (s : State) : ExecResult :=
  match decode s.params.firstOperandCheck line with
  | .error e => .error e
  | .ok i => effectOf i s

/-- What a caller of `Exec(line)` is given (R117, R130; 60 R210), the line in the program or not. The state it leaves is the
copy of `execLine`, or `s` where it raises an error (R125). -/
def execReturn (line : Line) (s : State) : ExecReturn :=
  match execLine line s with
  | .ok jumped _ => .ok jumped
  | .error e => .error (errorRecord s e)

/-- The result of the cycle a RUNNING core is about to run: `PcOutOfRange`, or `Exec` of the fetched line (R113). -/
def cycleResult (s : State) : ExecResult :=
  match fetchDecode s with
  | .error e => .error e
  | .ok i => effectOf i s

/-- What `Step` returns to the host (R111, R113, R127). The state it leaves is `step`'s (log 6). -/
def stepReturn (s : State) : StepReturn :=
  match status s with
  | .halted => .refused .halted
  | .faulted => .refused .faulted
  | .running =>
    match cycleResult s with
    | .ok _ _ => .ok
    | .error e => .error (errorRecord s e)

/-- `Observe()` (R129): the whole state surface, read only. -/
def observe (s : State) : Surface :=
  { x := s.x
    mem := (List.range memSize).map s.cell
    pc := s.pc
    sp := s.sp
    flags := s.flags
    err := s.err
    status := status s }

/-- The stack depth (43_stack R185). -/
def stackDepth (s : State) : Int := spInit - s.sp

/-- The program with `line` at index `p`, extended by empty lines up to it where it is shorter. -/
def placeLine (prog : List Line) (p : Nat) (line : Line) : List Line :=
  if p < prog.length then prog.set p line
  else prog ++ (List.replicate (p - prog.length) [] ++ [line])

/-- The index `withFetchWord` puts its line at: `pc`, where a program can hold a line there, else 0 (log 10). -/
def placeIndex (s : State) : Word := if 0 ≤ s.pc.toInt ∧ s.pc.toInt < intMax then s.pc else 0

end Sys2Proof.Machine
end

