-- ==== Sys2Proof/Machine/Step.lean ====
section
/-! DEFINITION. `Step`, the one instruction cycle (40 R113), and how the host puts one instruction before it. -/

namespace Sys2Proof.Machine

/-- `Step()`: enabled only when the status is RUNNING (R112); then fetch, decode, and the cycle of the instruction, or the
error of the fetch or the decoding (R113). -/
def step (s : State) : Host.Outcome State Fault Refusal :=
  match status s with
  | .halted => .fault .runEnded
  | .faulted => .fault .coreFaulted
  | .running =>
    match fetchDecode s with
    | .error e => .next (raiseError s e)
    | .ok i => exec i s

/-- `s` with the line of an opcode-table number where `step` fetches next (log 9, log 10). The program is placed from outside,
as Construct places it (70 R253): no step writes the program store. -/
def State.withFetchWord (s : State) (nbits w : Nat) : State :=
  ((s.setProg (placeLine s.prog (placeIndex s).toNat (tableLine nbits w))).setPc (placeIndex s)).setErr none

end Sys2Proof.Machine
end

