-- ==== Sys2Proof/Machine/Pseudocode.lean ====
section
/-! DEFINITION. `Exec` and its handlers written from tokens to effects, as the rules' pseudocode has them (40 R117, R123; 41 R152,
R153; 42 R171, R172; 43 R186, R187; 44 R200). The machine goes through the decoded instruction instead (30 R92, R94);
statements compare the two. Nothing in the machine calls this file. -/

namespace Sys2Proof.Machine

/-- Flags after an ADD or SUB with result `r` (R151). -/
def pseudoFlags (f : Flags) (r : Word) : Flags :=
  { zero := f.zero || decide (r.toInt = 0)
    negative := f.negative || decide (r.toInt < 0)
    carry := f.carry }

/-- R152 and R153: `op` is the exact sum or difference. -/
def pseudoArith (op : Int → Int → Int) (t1 t2 : Token) (s : State) : ExecResult :=
  match regOf t1, resolveToken s t2 with
  | none, _ => .error (.invalidRegister t1)
  | some _, .error e => .error e
  | some d, .ok b =>
    let r := wrap (op (s.reg d).toInt b.toInt)
    .ok false ((s.setReg d r).setFlags (pseudoFlags s.flags r))

/-- R171. -/
def pseudoStore (t1 t2 : Token) (s : State) : ExecResult :=
  match resolveToken s t1, resolveToken s t2 with
  | .error e, _ => .error e
  | .ok _, .error e => .error e
  | .ok a, .ok v =>
    if a.toInt < 0 ∨ a.toInt > 127 then .error (.memoryOutOfBounds a) else .ok false (s.setCell a.toInt.toNat v)

/-- R172. -/
def pseudoLoad (t1 t2 : Token) (s : State) : ExecResult :=
  match regOf t1, resolveToken s t2 with
  | none, _ => .error (.invalidRegister t1)
  | some _, .error e => .error e
  | some d, .ok a =>
    if a.toInt < 0 ∨ a.toInt > 127 then .error (.memoryOutOfBounds a)
    else .ok false (s.setReg d (s.cell a.toInt.toNat))

/-- R186, with the rule's own test `sp < 0`. -/
def pseudoPush (t1 : Token) (s : State) : ExecResult :=
  match resolveToken s t1 with
  | .error e => .error e
  | .ok v => if s.sp < 0 then .error (.stackOverflow s.sp) else .ok false ((s.setCell s.sp.toNat v).setSp (s.sp - 1))

/-- R187, with the rule's own test `sp + 1 > 127`. -/
def pseudoPop (t1 : Token) (s : State) : ExecResult :=
  match regOf t1 with
  | none => .error (.invalidRegister t1)
  | some d =>
    if s.sp + 1 > 127 then .error (.stackUnderflow s.sp)
    else .ok false ((s.setSp (s.sp + 1)).setReg d (s.cell (s.sp + 1).toNat))

/-- R200. -/
def pseudoJmp (t1 : Token) (s : State) : ExecResult :=
  match resolveToken s t1 with
  | .error e => .error e
  | .ok g => .ok true (s.setPc g)

/-- R117, check by check, on the tokens `t[0]`, `t[1]`, `t[2]` of the line. -/
def pseudoExec (line : Line) (s : State) : ExecResult :=
  let t := tokens line
  let t0 := t.getD 0 []
  let t1 := t.getD 1 []
  let t2 := t.getD 2 []
  let writesReg := t0 ∈ [Opcode.add.mnemonic, Opcode.sub.mnemonic, Opcode.load.mnemonic, Opcode.pop.mnemonic]
  let arity := if t0 ∈ [Opcode.push.mnemonic, Opcode.pop.mnemonic, Opcode.jmp.mnemonic] then 1 else 2
  if t.length < 2 then .error (.malformedInstruction line)
  else if t0 ∉ opcodes.map Opcode.mnemonic then .error (.unknownOpcode t0)
  else if (s.params.firstOperandCheck = .all ∨ writesReg) ∧ regOf t1 = none then .error (.invalidRegister t1)
  else if t.length - 1 ≠ arity then .error (.malformedInstruction line)
  else if t0 = Opcode.add.mnemonic then pseudoArith (· + ·) t1 t2 s
  else if t0 = Opcode.sub.mnemonic then pseudoArith (· - ·) t1 t2 s
  else if t0 = Opcode.store.mnemonic then pseudoStore t1 t2 s
  else if t0 = Opcode.load.mnemonic then pseudoLoad t1 t2 s
  else if t0 = Opcode.push.mnemonic then pseudoPush t1 s
  else if t0 = Opcode.pop.mnemonic then pseudoPop t1 s
  else pseudoJmp t1 s

end Sys2Proof.Machine
end

