-- ==== Sys2Proof/Safety.lean ====
section
/-! DEFINITION. What claims call a legal state (10_state R35), and sequences of instructions for claims about them. -/

namespace Sys2Proof.Machine

/-- The invariants of the spec that one state shows: the stack pointer's range (R188), CARRY false (R27), the canonical form
of the memory over indices 0..127 (R29), a program a core can be constructed with (R5), and a latch that names the line at
`pc` and is used only with ERR_POLICY = halt (R127). -/
structure State.Inv (s : State) : Prop where
  sp_low : -1 ≤ s.sp
  sp_high : s.sp ≤ 127
  carry_clear : s.flags.carry = false
  mem_wf : s.mem.wf = true
  prog_wf : programWf s.params s.prog = true
  err_at_pc : ∀ r, s.err = some r → r.pc = s.pc
  err_latched : s.params.errPolicy = .skip → s.err = none

/-- The state after one instruction, for claims about sequences: `exec` answers a next state for every instruction. -/
def afterExec (s : State) (i : Instr) : State :=
  match exec i s with
  | .next t => t
  | .fault _ => s
  | .refused _ => s

/-- The state after a list of instructions, the first one first. -/
def afterAll (s : State) (is : List Instr) : State := is.foldl afterExec s

/-- Whether an instruction run in state `s` does not store to cell `a` (20_memory R53). -/
def leavesCell (a : Int) (s : State) : Instr → Prop
  | .store dest _ => (resolve s dest).toInt ≠ a
  | .push _ => s.sp ≠ a
  | .add _ _ | .sub _ _ | .load _ _ | .pop _ | .jmp _ => True

/-- The same of every instruction of a list, each in the state it runs in. -/
def leavesCellAll (a : Int) : State → List Instr → Prop
  | _, [] => True
  | s, i :: rest => leavesCell a s i ∧ leavesCellAll a (afterExec s i) rest

end Sys2Proof.Machine
end

