-- ==== Sys2Proof/Certificates/Slice0/Obligations.lean ====
section
/-! DEFINITION. The statements for the provers, rule by rule of spec/. They hold for both values of FIRST_OPERAND_CHECK and of
ERR_POLICY unless a hypothesis says otherwise. -/

open Sys2Proof Sys2Proof.Machine

/-! ## Reset -/

/-- 10_state R36, 70 R251: the reset state of a core with any parameters and any program (R1, R2, R3 and CARRY: the spec's own
decision D12, log 3). -/
def Obligations.ConstructedStateHoldsResetValues : Prop :=
  ∀ (params : Params) (prog : List Line) (s : State), s = State.construct params prog →
    (∀ r, s.reg r = 0) ∧ (∀ a, s.cell a = 0) ∧ s.pc = 0 ∧ s.sp = 127 ∧
      s.flags.zero = false ∧ s.flags.negative = false ∧ s.flags.carry = false ∧ s.err = none ∧
      (0 < prog.length → status s = .running) ∧ (prog.length = 0 → status s = .halted)

/-- Every admissible construction, and the model's reset state, a construction with the empty program (log 2), meets the
invariant of Safety.lean. -/
def Obligations.ResetMeetsInvariant : Prop :=
  (∀ params prog, programWf params prog = true → (State.construct params prog).Inv) ∧ State.reset.Inv

/-! ## Encoding -/

/-- One line of each opcode, its bytes as spec/95 writes them. -/
def Obligations.SpecLinesDecode : Prop :=
  decode .perOpcode [0x41, 0x44, 0x44, 0x20, 0x52, 0x30, 0x20, 0x35] = .ok (.add .r0 (.lit 5)) ∧
    decode .perOpcode [0x53, 0x55, 0x42, 0x20, 0x52, 0x31, 0x20, 0x33] = .ok (.sub .r1 (.lit 3)) ∧
    decode .perOpcode [0x53, 0x54, 0x4F, 0x52, 0x45, 0x20, 0x35, 0x20, 0x52, 0x30] = .ok (.store (.lit 5) (.reg .r0)) ∧
    decode .perOpcode [0x4C, 0x4F, 0x41, 0x44, 0x20, 0x52, 0x33, 0x20, 0x32, 0x32] = .ok (.load .r3 (.lit 22)) ∧
    decode .perOpcode [0x50, 0x55, 0x53, 0x48, 0x20, 0x52, 0x31] = .ok (.push (.reg .r1)) ∧
    decode .perOpcode [0x50, 0x4F, 0x50, 0x20, 0x52, 0x31] = .ok (.pop .r1) ∧
    decode .perOpcode [0x4A, 0x4D, 0x50, 0x20, 0x31, 0x30, 0x30] = .ok (.jmp (.lit 100))

/-- Decoding the canonical line of an instruction gives it back, at every register and every literal. -/
def Obligations.DecodeEncodeRoundTrip : Prop :=
  ∀ (check : FirstOperandCheck) (i : Instr), i.wf check = true → decode check (encode i) = .ok i

/-- Only well-formed instructions are decoded, and one instruction means the same under both settings. -/
def Obligations.DecodedInstructionIsWellFormed : Prop :=
  ∀ (check : FirstOperandCheck) (line : Line) (i : Instr), decode check line = .ok i →
    i.wf check = true ∧ decode .perOpcode line = .ok i

/-- 30 R82: the tokens are the maximal runs of non-whitespace characters, in order. First clause: a line made of gaps of
whitespace and runs of other characters has those runs as its tokens. Second clause: every line is so made. -/
def Obligations.TokensAreMaximalRuns : Prop :=
  (∀ (pieces : List (Line × Token)) (trailing : Line),
    (∀ p ∈ pieces, (∀ c ∈ p.1, isSpace c = true) ∧ p.2 ≠ [] ∧ ∀ c ∈ p.2, isSpace c = false) →
    (∀ p ∈ pieces.tail, p.1 ≠ []) → (∀ c ∈ trailing, isSpace c = true) →
    tokens (pieces.flatMap (fun p => p.1 ++ p.2) ++ trailing) = pieces.map Prod.snd) ∧
  (∀ line : Line, ∃ (pieces : List (Line × Token)) (trailing : Line),
    (∀ p ∈ pieces, (∀ c ∈ p.1, isSpace c = true) ∧ p.2 ≠ [] ∧ ∀ c ∈ p.2, isSpace c = false) ∧
    (∀ p ∈ pieces.tail, p.1 ≠ []) ∧ (∀ c ∈ trailing, isSpace c = true) ∧
    line = pieces.flatMap (fun p => p.1 ++ p.2) ++ trailing)

/-- 30 R81, R84, R85, R93: the whitespace characters, the mnemonics and the register names, and nothing else. -/
def Obligations.TokenTablesAreExact : Prop :=
  (∀ c : Byte, isSpace c = true ↔ c ∈ [0x09, 0x0A, 0x0B, 0x0C, 0x0D, 0x20]) ∧
    (∀ (t : Token) (op : Opcode), opcodeOf t = some op ↔ (t, op) ∈
      [([0x41, 0x44, 0x44], .add), ([0x53, 0x55, 0x42], .sub), ([0x53, 0x54, 0x4F, 0x52, 0x45], .store),
        ([0x4C, 0x4F, 0x41, 0x44], .load), ([0x50, 0x55, 0x53, 0x48], .push), ([0x50, 0x4F, 0x50], .pop),
        ([0x4A, 0x4D, 0x50], .jmp)]) ∧
    (∀ (t : Token) (r : Reg), regOf t = some r ↔ (t, r) ∈
      [([0x52, 0x30], .r0), ([0x52, 0x31], .r1), ([0x52, 0x32], .r2), ([0x52, 0x33], .r3)])

/-- 30 R86: a literal is an optional minus sign and one or more decimal digits whose value is in INT_MIN..INT_MAX (at
XLEN = 32, R5; log 1), and it denotes that value; no token is both a literal and a register name. -/
def Obligations.LiteralGrammar : Prop :=
  (∀ (t : Token) (v : Word), intVal t = some v ↔
    ∃ (minus : Bool) (digits : List (Fin 10)), digits ≠ [] ∧
      t = (if minus then [0x2D] else []) ++ digits.map (fun d => BitVec.ofNat 8 (0x30 + d.val)) ∧
      v.toInt = (if minus then -1 else 1) * ((digits.foldl (fun n d => 10 * n + d.val) 0 : Nat) : Int)) ∧
  (∀ t : Token, intVal t = none ∨ regOf t = none)

/-- 40 R118, R119, R120, R121: the four checks of `Exec`, in their order, with what each reports, for both values of
FIRST_OPERAND_CHECK. -/
def Obligations.ValidationChecksInOrder : Prop :=
  ∀ (s : State) (line : Line),
    ((tokens line).length < 2 → execLine line s = .error (.malformedInstruction line)) ∧
    ∀ (t0 t1 : Token) (rest : List Token), tokens line = t0 :: t1 :: rest →
      (opcodeOf t0 = none → execLine line s = .error (.unknownOpcode t0)) ∧
      ∀ op : Opcode, opcodeOf t0 = some op →
        ((s.params.firstOperandCheck = .all ∨ op ∈ [Opcode.add, .sub, .load, .pop]) → regOf t1 = none →
          execLine line s = .error (.invalidRegister t1)) ∧
        ((s.params.firstOperandCheck = .perOpcode ∧ op ∈ [Opcode.store, .push, .jmp]) ∨ regOf t1 ≠ none →
          rest.length ≠ (if op ∈ [Opcode.add, .sub, .store, .load] then 1 else 0) →
          execLine line s = .error (.malformedInstruction line))

/-- 40 R123: resolving an operand token, and the decoded operand's value. -/
def Obligations.ResolveReadsRegisterOrLiteral : Prop :=
  ∀ (s : State) (t : Token),
    (∀ r, regOf t = some r → resolveToken s t = .ok (s.reg r)) ∧
    (∀ v, intVal t = some v → resolveToken s t = .ok v) ∧
    (regOf t = none → intVal t = none → resolveToken s t = .error (.invalidOperand t)) ∧
    (∀ o, operandOf t = .ok o → resolveToken s t = .ok (resolve s o))

/-- 40 R124, 60 R214: operands are resolved in token order, the first that is neither register nor literal is reported, and
it is reported before any index is tested. -/
def Obligations.OperandErrorsInTokenOrder : Prop :=
  ∀ (s : State) (line : Line) (a b : Token),
    (∀ op ∈ [Opcode.add, .sub, .load], tokens line = [op.mnemonic, a, b] → regOf a ≠ none →
      regOf b = none → intVal b = none → execLine line s = .error (.invalidOperand b)) ∧
    (tokens line = [Opcode.store.mnemonic, a, b] →
      (s.params.firstOperandCheck = .perOpcode → regOf a = none → intVal a = none →
        execLine line s = .error (.invalidOperand a)) ∧
      (regOf a ≠ none ∨ (s.params.firstOperandCheck = .perOpcode ∧ intVal a ≠ none) → regOf b = none →
        intVal b = none → execLine line s = .error (.invalidOperand b))) ∧
    (∀ op ∈ [Opcode.push, .jmp], tokens line = [op.mnemonic, a] → s.params.firstOperandCheck = .perOpcode →
      regOf a = none → intVal a = none → execLine line s = .error (.invalidOperand a))

/-- 40 R117 and the instruction rules: the machine, which decodes first, does on every line what the rules' token-level
pseudocode does. The premise is the invariant of 43_stack R188. -/
def Obligations.ExecRefinesPseudocode : Prop :=
  ∀ (line : Line) (s : State), -1 ≤ s.sp → s.sp ≤ 127 → execLine line s = pseudoExec line s

/-! ## The instructions -/

/-- 41 R150 at XLEN = 32 (R5; log 1): the ALU's words in integers, and exactness where nothing overflows. -/
def Obligations.AluWraps : Prop :=
  ∀ a b : Word,
    (aluAdd a b).toInt = (a.toInt + b.toInt + 2147483648) % 4294967296 - 2147483648 ∧
    (aluSub a b).toInt = (a.toInt - b.toInt + 2147483648) % 4294967296 - 2147483648 ∧
    (-2147483648 ≤ a.toInt + b.toInt → a.toInt + b.toInt ≤ 2147483647 → (aluAdd a b).toInt = a.toInt + b.toInt) ∧
    (-2147483648 ≤ a.toInt - b.toInt → a.toInt - b.toInt ≤ 2147483647 → (aluSub a b).toInt = a.toInt - b.toInt)

/-- ADD (41 R152, R151): result, flags and frame, in every state. -/
def Obligations.AddResultFlagsFrame : Prop :=
  ∀ (s : State) (d : Reg) (src : Operand), ∃ t, exec (.add d src) s = .next t ∧
    (t.reg d).toInt = ((s.reg d).toInt + (resolve s src).toInt + 2147483648) % 4294967296 - 2147483648 ∧
    (t.flags.zero = true ↔ s.flags.zero = true ∨ (t.reg d).toInt = 0) ∧
    (t.flags.negative = true ↔ s.flags.negative = true ∨ (t.reg d).toInt < 0) ∧
    t.flags.carry = s.flags.carry ∧ t.pc = s.pc + 1 ∧ (∀ q, q ≠ d → t.reg q = s.reg q) ∧
    (∀ a, t.cell a = s.cell a) ∧ t.sp = s.sp ∧ t.err = s.err ∧ t.prog = s.prog ∧ t.params = s.params

/-- SUB (41 R153, R151): result, flags and frame, in every state; the operation is dest minus src. -/
def Obligations.SubResultFlagsFrame : Prop :=
  ∀ (s : State) (d : Reg) (src : Operand), ∃ t, exec (.sub d src) s = .next t ∧
    (t.reg d).toInt = ((s.reg d).toInt - (resolve s src).toInt + 2147483648) % 4294967296 - 2147483648 ∧
    (t.flags.zero = true ↔ s.flags.zero = true ∨ (t.reg d).toInt = 0) ∧
    (t.flags.negative = true ↔ s.flags.negative = true ∨ (t.reg d).toInt < 0) ∧
    t.flags.carry = s.flags.carry ∧ t.pc = s.pc + 1 ∧ (∀ q, q ≠ d → t.reg q = s.reg q) ∧
    (∀ a, t.cell a = s.cell a) ∧ t.sp = s.sp ∧ t.err = s.err ∧ t.prog = s.prog ∧ t.params = s.params

/-- STORE (42 R171) to a valid index: the cell stored to, and the frame. -/
def Obligations.StoreWritesOneCell : Prop :=
  ∀ (s : State) (dest src : Operand), s.mem.wf = true →
    0 ≤ (resolve s dest).toInt → (resolve s dest).toInt ≤ 127 → ∃ t, exec (.store dest src) s = .next t ∧
      (∀ a : Nat, (a : Int) = (resolve s dest).toInt → t.cell a = resolve s src) ∧
      (∀ a : Nat, (a : Int) ≠ (resolve s dest).toInt → t.cell a = s.cell a) ∧
      t.pc = s.pc + 1 ∧ (∀ q, t.reg q = s.reg q) ∧ t.flags = s.flags ∧ t.sp = s.sp ∧ t.err = s.err ∧
      t.prog = s.prog ∧ t.params = s.params

/-- LOAD (42 R172) from a valid index: the register loaded, and the frame; no flag is written. -/
def Obligations.LoadReadsOneCell : Prop :=
  ∀ (s : State) (d : Reg) (src : Operand), 0 ≤ (resolve s src).toInt → (resolve s src).toInt ≤ 127 →
    ∃ t, exec (.load d src) s = .next t ∧
      (∀ a : Nat, (a : Int) = (resolve s src).toInt → t.reg d = s.cell a) ∧
      t.pc = s.pc + 1 ∧ (∀ q, q ≠ d → t.reg q = s.reg q) ∧ (∀ a, t.cell a = s.cell a) ∧ t.flags = s.flags ∧
      t.sp = s.sp ∧ t.err = s.err ∧ t.prog = s.prog ∧ t.params = s.params

/-- PUSH (43 R186) where the stack is not full: the cell at the old `sp`, the new `sp`, and the frame. -/
def Obligations.PushStoresThenDecrements : Prop :=
  ∀ (s : State) (src : Operand), s.mem.wf = true → 0 ≤ s.sp → s.sp ≤ 127 →
    ∃ t, exec (.push src) s = .next t ∧ t.sp = s.sp - 1 ∧
      (∀ a : Nat, (a : Int) = s.sp → t.cell a = resolve s src) ∧
      (∀ a : Nat, (a : Int) ≠ s.sp → t.cell a = s.cell a) ∧
      t.pc = s.pc + 1 ∧ (∀ q, t.reg q = s.reg q) ∧ t.flags = s.flags ∧ t.err = s.err ∧
      t.prog = s.prog ∧ t.params = s.params

/-- POP (43 R187) where the stack is not empty: the new `sp`, the register loaded from it, and the frame; the popped cell
keeps its value. -/
def Obligations.PopIncrementsThenLoads : Prop :=
  ∀ (s : State) (d : Reg), -1 ≤ s.sp → s.sp ≤ 126 →
    ∃ t, exec (.pop d) s = .next t ∧ t.sp = s.sp + 1 ∧
      (∀ a : Nat, (a : Int) = t.sp → t.reg d = s.cell a) ∧
      t.pc = s.pc + 1 ∧ (∀ q, q ≠ d → t.reg q = s.reg q) ∧ (∀ a, t.cell a = s.cell a) ∧ t.flags = s.flags ∧
      t.err = s.err ∧ t.prog = s.prog ∧ t.params = s.params

/-- JMP (44 R200): `pc` is the target itself, whatever it is, and nothing else changes. -/
def Obligations.JmpSetsPcToTarget : Prop :=
  ∀ (s : State) (target : Operand), ∃ t, exec (.jmp target) s = .next t ∧
    t.pc = resolve s target ∧ (∀ q, t.reg q = s.reg q) ∧ (∀ a, t.cell a = s.cell a) ∧ t.flags = s.flags ∧
    t.sp = s.sp ∧ t.err = s.err ∧ t.prog = s.prog ∧ t.params = s.params

/-- 60 R215: STORE and LOAD at an index outside 0..127 do nothing but take `MemoryOutOfBounds`, code 5, with the index. -/
def Obligations.OutOfRangeIndexTakesError : Prop :=
  ∀ (s : State) (d : Reg) (addr data : Operand), (resolve s addr).toInt < 0 ∨ (resolve s addr).toInt > 127 →
    (s.params.errPolicy = .halt → ∃ t, exec (.store addr data) s = .next t ∧ exec (.load d addr) s = .next t ∧
      t = { s with err := some { error := .memoryOutOfBounds (resolve s addr), pc := s.pc } } ∧ errCode t.err = 5) ∧
    (s.params.errPolicy = .skip → exec (.store addr data) s = .next { s with pc := s.pc + 1 } ∧
      exec (.load d addr) s = .next { s with pc := s.pc + 1 })

/-- 60 R216: PUSH with `sp < 0` does nothing but take `StackOverflow`, code 6, with `sp`. -/
def Obligations.PushOnFullStackTakesError : Prop :=
  ∀ (s : State) (src : Operand), s.sp < 0 →
    (s.params.errPolicy = .halt → ∃ t, exec (.push src) s = .next t ∧
      t = { s with err := some { error := .stackOverflow s.sp, pc := s.pc } } ∧ errCode t.err = 6) ∧
    (s.params.errPolicy = .skip → exec (.push src) s = .next { s with pc := s.pc + 1 })

/-- 60 R217: POP with `sp + 1 > 127` does nothing but take `StackUnderflow`, code 7, with `sp`. -/
def Obligations.PopOnEmptyStackTakesError : Prop :=
  ∀ (s : State) (d : Reg), s.sp + 1 > 127 →
    (s.params.errPolicy = .halt → ∃ t, exec (.pop d) s = .next t ∧
      t = { s with err := some { error := .stackUnderflow s.sp, pc := s.pc } } ∧ errCode t.err = 7) ∧
    (s.params.errPolicy = .skip → exec (.pop d) s = .next { s with pc := s.pc + 1 })

/-- 60 R210, R218, its column "raised by": a decoded instruction raises no error but its own bounds error, `Exec` raises codes
1 to 7 only, and code 8 is the fetch's. -/
def Obligations.ErrorsAreTheInstructionsOwn : Prop :=
  (∀ (s : State) (i : Instr) (e : ExecError), effectOf i s = .error e →
    (∃ index : Word, e = .memoryOutOfBounds index ∧ (index.toInt < 0 ∨ index.toInt > 127) ∧
      (i.opcode = .store ∨ i.opcode = .load)) ∨
    (e = .stackOverflow s.sp ∧ i.opcode = .push) ∨ (e = .stackUnderflow s.sp ∧ i.opcode = .pop)) ∧
  (∀ (s : State) (line : Line) (e : ExecError) (pc : Word), execLine line s = .error e →
    1 ≤ errCode (some { error := e, pc := pc }) ∧ errCode (some { error := e, pc := pc }) ≤ 7)

/-! ## Laws across instructions -/

/-- 41 R154 (c): SUB of the same value restores the register, with wrap-around too; the value is a literal or another
register. -/
def Obligations.AddThenSubRestoresRegister : Prop :=
  ∀ (s : State) (d : Reg) (n : Operand), n ≠ .reg d → ∃ t u, exec (.add d n) s = .next t ∧ exec (.sub d n) t = .next u ∧
    ∀ q, u.reg q = s.reg q

/-- 43 R189, its first sentence: PUSH r then POP r restores `sp` and every register; the cell keeps the pushed value. -/
def Obligations.PushThenPopRestores : Prop :=
  ∀ (s : State) (r : Reg), s.mem.wf = true → 0 ≤ s.sp → s.sp ≤ 127 →
    ∃ t u, exec (.push (.reg r)) s = .next t ∧ exec (.pop r) t = .next u ∧ u.sp = s.sp ∧ (∀ q, u.reg q = s.reg q) ∧
      ∀ a : Nat, u.cell a = if (a : Int) = s.sp then s.reg r else s.cell a

/-- 42 R174: after a STORE of `v` to `a` and any instructions that store to other cells only, a LOAD from `a` gives `v`. -/
def Obligations.LoadReturnsLastStore : Prop :=
  ∀ (s : State) (dest src addr : Operand) (d : Reg) (between : List Instr) (s1 s2 : State), s.mem.wf = true →
    0 ≤ (resolve s dest).toInt → (resolve s dest).toInt ≤ 127 → s1 = afterExec s (.store dest src) →
    leavesCellAll (resolve s dest).toInt s1 between → s2 = afterAll s1 between → resolve s2 addr = resolve s dest →
    ∃ t, exec (.load d addr) s2 = .next t ∧ t.reg d = resolve s src

/-- 43 R186, its corner case: from an empty stack 128 PUSHes succeed, one deeper each, and the 129th overflows. -/
def Obligations.StackHolds128Words : Prop :=
  ∀ (s : State) (v : Operand) (n : Nat) (t : State), s.sp = 127 → s.err = none → s.params.errPolicy = .halt →
    n ≤ 128 → t = afterAll s (List.replicate n (.push v)) →
    stackDepth t = n ∧ t.err = none ∧
      (n = 128 → ∃ u r, exec (.push v) t = .next u ∧ u.err = some r ∧ r.error = .stackOverflow (-1) ∧ u.sp = -1)

/-! ## The step -/

/-- 40 R112: the status is a function of `err`, `pc` and `N`, and a step exists exactly when it is RUNNING. -/
def Obligations.StatusDecidesWhetherStepExists : Prop :=
  ∀ s : State,
    (status s = .faulted ↔ s.err ≠ none) ∧
    (status s = .halted ↔ s.err = none ∧ s.pc.toInt ≥ s.prog.length) ∧
    (status s = .running ↔ s.err = none ∧ s.pc.toInt < s.prog.length) ∧
    ((∃ t, step s = .next t) ↔ status s = .running)

/-- Where the spec gives no step the model stops by name, and nowhere else (log 5, the model's choice of names). -/
def Obligations.StepStopsByNameOtherwise : Prop :=
  ∀ s : State,
    (step s = .fault .runEnded ↔ status s = .halted) ∧ (step s = .fault .coreFaulted ↔ status s = .faulted) ∧
    ∀ why, step s ≠ .refused why

/-- A step of a RUNNING core whose line at `pc` decodes to `i` is `exec i`; the commit and the `pc` update are in `exec`
(log 8). -/
def Obligations.StepRunsDecodedInstruction : Prop :=
  ∀ (s : State) (line : Line) (i : Instr), s.err = none → 0 ≤ s.pc.toInt → s.prog[s.pc.toNat]? = some line →
    s.pc.toInt < s.prog.length → decode s.params.firstOperandCheck line = .ok i → step s = exec i s

/-- 40 R113: the whole step. `r` is the result of the cycle: `PcOutOfRange`, or `Exec` of the fetched line. -/
def Obligations.StepFetchesExecutesCommits : Prop :=
  ∀ s : State, (status s ≠ .running → ¬ ∃ t, step s = .next t) ∧
    (status s = .running → ∃ r : ExecResult,
      (s.pc.toInt < 0 → r = .error (.pcOutOfRange s.pc)) ∧
      (0 ≤ s.pc.toInt → ∃ line, s.prog[s.pc.toNat]? = some line ∧ r = execLine line s) ∧
      (∀ t, r = .ok true t → step s = .next t ∧ stepReturn s = .ok) ∧
      (∀ t, r = .ok false t → step s = .next { t with pc := s.pc + 1 } ∧ stepReturn s = .ok) ∧
      (∀ e, r = .error e → stepReturn s = .error { error := e, pc := s.pc } ∧
        (s.params.errPolicy = .halt → step s = .next { s with err := some { error := e, pc := s.pc } }) ∧
        (s.params.errPolicy = .skip → step s = .next { s with pc := s.pc + 1 })))

/-- 40 R116: a JMP to a negative index succeeds and leaves the core RUNNING; the next step takes `PcOutOfRange`, changes
nothing else, and leaves the core FAULTED. -/
def Obligations.NegativeJumpFaultsOneStepLater : Prop :=
  ∀ (s : State) (target : Operand), s.err = none → s.params.errPolicy = .halt → (resolve s target).toInt < 0 →
    ∃ t u, exec (.jmp target) s = .next t ∧ t.pc = resolve s target ∧ t.err = none ∧ status t = .running ∧
      step t = .next u ∧ u = { t with err := some { error := .pcOutOfRange t.pc, pc := t.pc } } ∧
      errCode u.err = 8 ∧ status u = .faulted

/-- 40 R115: a JMP to an index `>= N` ends the run, and `pc` is not clamped. -/
def Obligations.JumpPastEndHalts : Prop :=
  ∀ (s : State) (target : Operand), s.err = none → (resolve s target).toInt ≥ s.prog.length →
    ∃ t, exec (.jmp target) s = .next t ∧ t.pc = resolve s target ∧ status t = .halted ∧ step t = .fault .runEnded

/-- 40 R125, R127: when `Step` returns an error, nothing but the latch (halt) or `pc` (skip) changes, and the record names
the line; with `halt` the core is then FAULTED for good. -/
def Obligations.ErrorChangesOnlyLatchOrPc : Prop :=
  ∀ (s : State) (r : ErrorRecord), stepReturn s = .error r → r.pc = s.pc ∧
    (s.params.errPolicy = .halt → step s = .next { s with err := some r } ∧
      status { s with err := some r } = .faulted ∧ ¬ ∃ u, step { s with err := some r } = .next u) ∧
    (s.params.errPolicy = .skip → step s = .next { s with pc := s.pc + 1 })

/-- 40 R111, through the model's `stepReturn` (log 6): `Step` is refused with a status exactly when that is the core's status
and not RUNNING; if it returns `Ok`, `step` answers a state with no error; if it returns an error under halt, `step` answers a
state whose latch holds it. -/
def Obligations.StepReturnAgreesWithStep : Prop :=
  ∀ s : State,
    (∀ st, stepReturn s = .refused st ↔ st ≠ .running ∧ status s = st) ∧
    (stepReturn s = .ok → ∃ t, step s = .next t ∧ t.err = none) ∧
    (∀ r, stepReturn s = .error r → s.params.errPolicy = .halt → ∃ t, step s = .next t ∧ t.err = some r)

/-- 44 R203: after every instruction other than JMP that raises no error, `pc` is its own index plus 1. -/
def Obligations.OtherInstructionsFallThrough : Prop :=
  ∀ (s : State) (i : Instr) (jumped : Bool) (u : State), effectOf i s = .ok jumped u →
    (jumped = true ↔ i.opcode = .jmp) ∧
    (i.opcode ≠ .jmp → ∃ t, exec i s = .next t ∧ t.pc = s.pc + 1 ∧ t.err = s.err)

/-- The model's reading of 10_state R24's derived sentence: under the invariant the increment of a step never wraps. -/
def Obligations.PcIncrementNeverWraps : Prop :=
  ∀ s t : State, s.Inv → step s = .next t → t.pc = s.pc + 1 → t.pc.toInt = s.pc.toInt + 1

/-- 40 R131: a JMP to its own line steps for ever. -/
def Obligations.JumpToItselfLoops : Prop :=
  ∀ (s : State) (line : Line) (target : Operand), status s = .running → 0 ≤ s.pc.toInt →
    s.prog[s.pc.toNat]? = some line → decode s.params.firstOperandCheck line = .ok (.jmp target) →
    resolve s target = s.pc → step s = .next s

/-! ## Rules about the whole machine -/

/-- Every step keeps the invariant of Safety.lean, from every state that meets it. -/
def Obligations.StepKeepsInvariant : Prop :=
  ∀ s t : State, s.Inv → step s = .next t → t.Inv

/-- 10_state R26, 41 R151: ADD and SUB OR their result's conditions into the flags, no other instruction writes a flag, and no
step makes ZERO or NEGATIVE false or writes CARRY. -/
def Obligations.FlagsAreSticky : Prop :=
  (∀ s t : State, step s = .next t → (s.flags.zero = true → t.flags.zero = true) ∧
    (s.flags.negative = true → t.flags.negative = true) ∧ t.flags.carry = s.flags.carry) ∧
  (∀ (s t : State) (d : Reg) (src : Operand), exec (.add d src) s = .next t ∨ exec (.sub d src) s = .next t →
    (t.flags.zero = true ↔ s.flags.zero = true ∨ (t.reg d).toInt = 0) ∧
    (t.flags.negative = true ↔ s.flags.negative = true ∨ (t.reg d).toInt < 0) ∧ t.flags.carry = s.flags.carry) ∧
  (∀ (s t : State) (i : Instr), i.opcode ≠ .add → i.opcode ≠ .sub → exec i s = .next t → t.flags = s.flags)

/-- 10_state R25: only PUSH and POP write `sp`, and each moves it by one at most. -/
def Obligations.OnlyStackInstructionsMoveSp : Prop :=
  ∀ (s t : State) (i : Instr), exec i s = .next t →
    (i.opcode ≠ .push → i.opcode ≠ .pop → t.sp = s.sp) ∧
    (i.opcode = .push → t.sp = s.sp ∨ t.sp = s.sp - 1) ∧ (i.opcode = .pop → t.sp = s.sp ∨ t.sp = s.sp + 1)

/-- 20_memory R53: the one cell a step can change is the one STORE's first operand resolves to, or the one at the `sp` before
a PUSH. A step of any other instruction changes none, nor does one that ends in an error (40 R125), and there is no cell beyond
127 to change. The last two clauses say the same of `exec`. -/
def Obligations.StepChangesOneCellAtMost : Prop :=
  (∀ s t : State, s.mem.wf = true → step s = .next t →
    (∀ dest src, fetchDecode s = .ok (.store dest src) →
      ∀ a : Nat, (a : Int) ≠ (resolve s dest).toInt → t.cell a = s.cell a) ∧
    (∀ src, fetchDecode s = .ok (.push src) → ∀ a : Nat, (a : Int) ≠ s.sp → t.cell a = s.cell a) ∧
    (∀ i, fetchDecode s = .ok i → i.opcode ≠ .store → i.opcode ≠ .push → ∀ a, t.cell a = s.cell a) ∧
    (∀ r, stepReturn s = .error r → ∀ a, t.cell a = s.cell a) ∧
    (∀ a, 128 ≤ a → t.cell a = s.cell a)) ∧
  (∀ (s t : State) (i : Instr), s.mem.wf = true → exec i s = .next t →
    ∀ a : Nat, (∀ dest src, i = .store dest src → (a : Int) ≠ (resolve s dest).toInt) →
      (∀ src, i = .push src → (a : Int) ≠ s.sp) → t.cell a = s.cell a) ∧
  (∀ (s t : State) (i : Instr), i.opcode ≠ .store → i.opcode ≠ .push → exec i s = .next t →
    ∀ a, t.cell a = s.cell a)

/-- 10_state R22: the register an instruction writes is its destination, and STORE, PUSH and JMP write none. -/
def Obligations.OnlyDestinationRegisterWritten : Prop :=
  ∀ (s t : State) (i : Instr), exec i s = .next t → ∀ q : Reg, t.reg q ≠ s.reg q →
    (∃ src, i = .add q src) ∨ (∃ src, i = .sub q src) ∨ (∃ src, i = .load q src) ∨ i = .pop q

/-- 10_state R20, R30: no step changes the program or the parameters. -/
def Obligations.ProgramAndParametersFixed : Prop :=
  ∀ s t : State, step s = .next t → t.prog = s.prog ∧ t.params = s.params

/-- 10_state R31, 60 R221: a step starts with an empty latch; what it latches stays, since no step follows. -/
def Obligations.ErrorLatchWrittenOnce : Prop :=
  ∀ s t : State, step s = .next t → s.err = none ∧
    (t.err ≠ none → t.pc = s.pc ∧ (∃ e, t.err = some { error := e, pc := s.pc }) ∧ ¬ ∃ u, step t = .next u)

/-- Two canonical memories that read alike are equal data (the model's canonical form, log 4). -/
def Obligations.CanonicalMemoriesAreEqual : Prop :=
  ∀ m n : Memory, m.wf = true → n.wf = true → (∀ a, m.read a = n.read a) → m = n

/-- 40 R129: the state surface shows the whole state between steps; 10_state R28: the packed flags. -/
def Obligations.ObserveShowsWholeState : Prop :=
  (∀ s : State, (observe s).x = s.x ∧ (observe s).mem.length = 128 ∧
    (∀ a < 128, (observe s).mem[a]? = some (s.cell a)) ∧ (observe s).pc = s.pc ∧ (observe s).sp = s.sp ∧
    (observe s).flags = s.flags ∧ (observe s).err = s.err ∧ (observe s).status = status s) ∧
  (∀ f : Flags, f.packed.getLsbD 0 = f.zero ∧ f.packed.getLsbD 1 = f.negative ∧ f.packed.getLsbD 2 = f.carry)

/-- Under the invariant the surface determines the state, the program and the parameters apart: nothing is hidden (10_state
R34). -/
def Obligations.NoHiddenState : Prop :=
  ∀ s t : State, s.Inv → t.Inv → s.prog = t.prog → s.params = t.params → observe s = observe t → s = t

/-- The host's placement of an opcode-table number (log 9, log 10), on a core with FIRST_OPERAND_CHECK = per_opcode, this
hardware's value: the very next step runs what the decoder reads. -/
def Obligations.PlacedWordRunsNext : Prop :=
  ∀ (s : State) (nbits w : Nat) (i : Instr), s.params.firstOperandCheck = .perOpcode →
    decodeTableWord nbits w = some i → step (s.withFetchWord nbits w) = exec i (s.withFetchWord nbits w)

/-- 60 R210, 40 R130: `Exec` is given any line, in the program or not. First clause: the record of an error carries the error
`Exec` raised and the current `pc`, and its code is one of 1 to 7. Second: another `pc` and another program change nothing of
what is returned but the record's `pc`. Third: what `Step` returns of the fetched line is what `Exec` returns of it. -/
def Obligations.ExecReportsCurrentPc : Prop :=
  (∀ (s : State) (line : Line) (r : ErrorRecord), execReturn line s = .error r →
    execLine line s = .error r.error ∧ r.pc = s.pc ∧ 1 ≤ errCode (some r) ∧ errCode (some r) ≤ 7) ∧
  (∀ (s : State) (line : Line) (pc : Word) (prog : List Line),
    (∀ jumped, execReturn line s = .ok jumped → execReturn line { s with pc := pc, prog := prog } = .ok jumped) ∧
    (∀ r, execReturn line s = .error r →
      execReturn line { s with pc := pc, prog := prog } = .error { error := r.error, pc := pc })) ∧
  (∀ (s : State) (line : Line), status s = .running → 0 ≤ s.pc.toInt → s.prog[s.pc.toNat]? = some line →
    (∀ jumped, execReturn line s = .ok jumped → stepReturn s = .ok) ∧
    (∀ r, execReturn line s = .error r → stepReturn s = .error r))
end

