-- ==== Sys2Proof/Laws/Decode.lean ====
section
/-! SUPPORT. The tokenizer, the token tables and the literals: what each answers on the pieces the encoder writes. -/

namespace Sys2Proof

/-- A token as R82 has it: not empty, no whitespace in it. -/
def IsToken (t : Token) : Prop := t ≠ [] ∧ ∀ c ∈ t, isSpace c = false

/-! ## Tokenization -/

theorem splitRun_space {c : Byte} (hc : isSpace c = true) (l : Line) : splitRun (c :: l) = ([], tokens l) := by
  simp [splitRun, hc, tokens]

theorem splitRun_nonspace {c : Byte} (hc : isSpace c = false) (l : Line) :
    splitRun (c :: l) = (c :: (splitRun l).1, (splitRun l).2) := by
  simp [splitRun, hc]

theorem splitRun_append {t : Token} (ht : ∀ c ∈ t, isSpace c = false) (l : Line) :
    splitRun (t ++ l) = (t ++ (splitRun l).1, (splitRun l).2) := by
  induction t with
  | nil => rfl
  | cons c cs ih =>
    rw [List.cons_append, splitRun_nonspace (ht c (by simp)), ih fun d hd => ht d (by simp [hd])]
    rfl

/-- Whitespace before a line changes no token. -/
theorem tokens_space {c : Byte} (hc : isSpace c = true) (l : Line) : tokens (c :: l) = tokens l := by
  rw [tokens, splitRun_space hc]
  rfl

theorem tokens_gap {g : Line} (hg : ∀ c ∈ g, isSpace c = true) (l : Line) : tokens (g ++ l) = tokens l := by
  induction g with
  | nil => rfl
  | cons c cs ih =>
    rw [List.cons_append, tokens_space (hg c (by simp)), ih fun d hd => hg d (by simp [hd])]

theorem closeRun_token {t : Token} (ht : t ≠ []) (later : List Token) : closeRun t later = t :: later := by
  cases t with
  | nil => exact absurd rfl ht
  | cons c cs => rfl

/-- A token at the end of a line. -/
theorem tokens_last {t : Token} (ht : IsToken t) : tokens t = [t] := by
  have h := splitRun_append ht.2 []
  simp only [List.append_nil, splitRun] at h
  rw [tokens, h]
  exact closeRun_token ht.1 _

/-- A token with whitespace behind it. -/
theorem tokens_token {t : Token} (ht : IsToken t) {c : Byte} (hc : isSpace c = true) (l : Line) :
    tokens (t ++ c :: l) = t :: tokens l := by
  rw [tokens, splitRun_append ht.2, splitRun_space hc]
  simp only [List.append_nil]
  exact closeRun_token ht.1 _

/-- Tokens written one space apart are read back. -/
theorem tokens_spaced {ts : List Token} (hts : ∀ t ∈ ts, IsToken t) : tokens (spaced ts) = ts := by
  induction ts with
  | nil => rfl
  | cons t rest ih =>
    have ht := hts t (by simp)
    have hrest := ih fun u hu => hts u (by simp [hu])
    rw [spaced, tokens_space (by decide)]
    cases rest with
    | nil => simpa [spaced] using tokens_last ht
    | cons u us =>
      rw [spaced] at hrest ⊢
      rw [tokens_token ht (by decide), ← hrest, tokens_space (by decide)]

/-- A first token and tokens one space apart behind it. -/
theorem tokens_append_spaced {t : Token} (ht : IsToken t) {ts : List Token} (hts : ∀ u ∈ ts, IsToken u) :
    tokens (t ++ spaced ts) = t :: ts := by
  have h := tokens_spaced (ts := t :: ts) (by
    intro u hu
    rcases List.mem_cons.mp hu with rfl | hu
    · exact ht
    · exact hts u hu)
  rwa [spaced, tokens_space (by decide)] at h

/-! ## Mnemonics and register names -/

theorem mnemonic_isToken (op : Opcode) : IsToken op.mnemonic := by
  refine ⟨by cases op <;> simp [Opcode.mnemonic], ?_⟩
  cases op <;> decide

theorem opcodeOf_mnemonic (op : Opcode) : opcodeOf op.mnemonic = some op := by cases op <;> decide

theorem name_isToken (r : Reg) : IsToken r.name := by
  refine ⟨by cases r <;> simp [Reg.name], ?_⟩
  cases r <;> decide

theorem regOf_name (r : Reg) : regOf r.name = some r := by cases r <;> decide

/-- The register a token names is the one whose name it is. -/
theorem name_of_regOf {t : Token} {r : Reg} (h : regOf t = some r) : t = r.name := by
  unfold regOf at h
  have := List.find?_some h
  exact (eq_of_beq this).symm

theorem mnemonic_of_opcodeOf {t : Token} {op : Opcode} (h : opcodeOf t = some op) : t = op.mnemonic := by
  unfold opcodeOf at h
  have := List.find?_some h
  exact (eq_of_beq this).symm

/-! ## Literals -/

theorem digitVal_digitByte {d : Nat} (hd : d < 10) : digitVal (digitByte d) = some d := by
  revert hd d
  decide

theorem digitByte_nonspace {d : Nat} (hd : d < 10) : isSpace (digitByte d) = false := by
  revert hd d
  decide

theorem digitByte_ne_minus {d : Nat} (hd : d < 10) : digitByte d ≠ 0x2D := by
  revert hd d
  decide

theorem digitByte_ne_R {d : Nat} (hd : d < 10) : digitByte d ≠ 0x52 := by
  revert hd d
  decide

/-- Numerals are read from left to right. -/
theorem numeralFrom_append (a b : List Byte) (acc : Nat) :
    numeralFrom (a ++ b) acc = (numeralFrom a acc).bind (numeralFrom b) := by
  induction a generalizing acc with
  | nil => rfl
  | cons c cs ih =>
    simp only [List.cons_append, numeralFrom]
    cases digitVal c with
    | none => rfl
    | some d => exact ih _

/-- Every character of a decimal numeral is a digit. -/
theorem mem_decimal {fuel n : Nat} {c : Byte} (h : c ∈ decimal fuel n) : ∃ d < 10, c = digitByte d := by
  induction fuel generalizing n with
  | zero => simp [decimal] at h
  | succ fuel ih =>
    rw [decimal] at h
    split at h
    · exact ⟨n, by assumption, by simpa using h⟩
    · rcases List.mem_append.mp h with h | h
      · exact ih h
      · exact ⟨n % 10, by omega, by simpa using h⟩

theorem decimal_ne_nil {fuel : Nat} (hf : 0 < fuel) (n : Nat) : decimal fuel n ≠ [] := by
  cases fuel with
  | zero => omega
  | succ fuel =>
    rw [decimal]
    split <;> simp

/-- A decimal numeral with enough digits denotes its number. -/
theorem numeralFrom_decimal {fuel n : Nat} (h : n < 10 ^ fuel) (hf : 0 < fuel) :
    numeralFrom (decimal fuel n) 0 = some n := by
  induction fuel generalizing n with
  | zero => omega
  | succ fuel ih =>
    rw [decimal]
    split
    · simp [numeralFrom, digitVal_digitByte ‹n < 10›]
    · rename_i hn
      have hpos : 0 < fuel := by
        rcases Nat.eq_zero_or_pos fuel with rfl | hp
        · simp at h
          omega
        · exact hp
      rw [numeralFrom_append, ih (by rw [pow_succ] at h; omega) hpos]
      simp only [Option.bind_some, numeralFrom, digitVal_digitByte (show n % 10 < 10 by omega)]
      congr 1
      omega

/-- A literal with a minus sign. -/
theorem literalValue_minus (d : Byte) (ds : List Byte) :
    literalValue (0x2D :: d :: ds) = (numeralFrom (d :: ds) 0).map fun n : Nat => -(n : Int) := by
  simp [literalValue]

/-- A literal without one. -/
theorem literalValue_plain {c : Byte} (hc : c ≠ 0x2D) (cs : List Byte) :
    literalValue (c :: cs) = (numeralFrom (c :: cs) 0).map fun n : Nat => (n : Int) := by
  cases cs <;> rw [literalValue, if_neg hc]

theorem natAbs_lt (v : Word) : v.toInt.natAbs < 10 ^ 10 := by
  have h1 := BitVec.le_toInt v
  have h2 := BitVec.toInt_lt (x := v)
  norm_num at h1 h2
  omega

theorem literalToken_isToken (v : Word) : IsToken (literalToken v) := by
  unfold literalToken IsToken
  split
  · refine ⟨by simp, fun c hc => ?_⟩
    rcases List.mem_cons.mp hc with rfl | hc
    · decide
    · obtain ⟨d, hd, rfl⟩ := mem_decimal hc
      exact digitByte_nonspace hd
  · refine ⟨decimal_ne_nil (by omega) _, fun c hc => ?_⟩
    obtain ⟨d, hd, rfl⟩ := mem_decimal hc
    exact digitByte_nonspace hd

/-- The canonical literal of a word denotes the word's integer. -/
theorem literalValue_literalToken (v : Word) : literalValue (literalToken v) = some v.toInt := by
  have hnum := numeralFrom_decimal (natAbs_lt v) (by omega)
  obtain ⟨c, cs, hds⟩ := List.exists_cons_of_ne_nil (decimal_ne_nil (fuel := 10) (by omega) v.toInt.natAbs)
  rw [hds] at hnum
  unfold literalToken
  split
  · rw [hds, literalValue_minus, hnum]
    refine congrArg some ?_
    dsimp only
    omega
  · have hc : c ≠ 0x2D := by
      obtain ⟨d, hd, rfl⟩ := mem_decimal (fuel := 10) (n := v.toInt.natAbs) (c := c) (by simp [hds])
      exact digitByte_ne_minus hd
    rw [hds, literalValue_plain hc, hnum]
    refine congrArg some ?_
    dsimp only
    omega

theorem intVal_literalToken (v : Word) : intVal (literalToken v) = some v := by
  have h1 := BitVec.le_toInt v
  have h2 := BitVec.toInt_lt (x := v)
  norm_num at h1 h2
  rw [intVal, literalValue_literalToken]
  simp only [intMin, intMax, wrap, BitVec.ofInt_toInt]
  rw [if_pos (by omega)]

/-- No token is both a register name and a canonical literal. -/
theorem regOf_literalToken (v : Word) : regOf (literalToken v) = none := by
  cases h : regOf (literalToken v) with
  | none => rfl
  | some r =>
    have hr := name_of_regOf h
    have hv := literalValue_literalToken v
    rw [hr] at hv
    cases r <;> exact absurd hv (by simp [literalValue, Reg.name, numeralFrom, digitVal])

theorem token_isToken (o : Operand) : IsToken o.token := by
  cases o with
  | reg r => exact name_isToken r
  | lit v => exact literalToken_isToken v

/-- The token of an operand decodes to the operand. -/
theorem operandOf_token (o : Operand) : operandOf o.token = .ok o := by
  cases o with
  | reg r => simp [operandOf, Operand.token, regOf_name]
  | lit v => simp [operandOf, Operand.token, regOf_literalToken, intVal_literalToken]

theorem destOf_name (r : Reg) : destOf r.name = .ok r := by simp [destOf, regOf_name]

/-! ## The decoder -/

/-- Decoding looks at the tokens alone, but for the line a malformed instruction reports. -/
theorem decode_of_tokens {check : FirstOperandCheck} {line : Line} {t0 t1 : Token} {rest : List Token}
    (h : tokens line = t0 :: t1 :: rest) :
    decode check line =
      match opcodeOf t0 with
      | none => .error (.unknownOpcode t0)
      | some op =>
        if needsRegFirst check op && (regOf t1).isNone then .error (.invalidRegister t1)
        else if (t1 :: rest).length ≠ op.arity then .error (.malformedInstruction line)
        else dispatchTokens line op (t1 :: rest) := by
  cases ho : opcodeOf t0 <;> simp only [decode, h, ho]

end Sys2Proof
end

