-- ==== Sys2Proof/Laws/State.lean ====
section
/-! SUPPORT. What each update of the state does to each field, and the register file's read-after-write law. -/

namespace Sys2Proof.Machine

/-- Reading register `q` after writing register `r`. -/
theorem RegFile.get_set (x : RegFile) (r q : Reg) (v : Word) :
    (x.set r v).get q = if q = r then v else x.get q := by
  cases r <;> cases q <;> rfl

@[simp] theorem RegFile.get_set_self (x : RegFile) (r : Reg) (v : Word) : (x.set r v).get r = v := by
  cases r <;> rfl

theorem RegFile.get_set_other (x : RegFile) {r q : Reg} (h : q ≠ r) (v : Word) : (x.set r v).get q = x.get q := by
  simp [RegFile.get_set, h]

/-- A register file is its four registers. -/
theorem RegFile.ext_get {x y : RegFile} (h : ∀ r, x.get r = y.get r) : x = y := by
  obtain ⟨a, b, c, d⟩ := x
  obtain ⟨a', b', c', d'⟩ := y
  have h0 := h .r0
  have h1 := h .r1
  have h2 := h .r2
  have h3 := h .r3
  simp only [RegFile.get] at h0 h1 h2 h3
  subst h0 h1 h2 h3
  rfl

/-- A state is its eight fields. -/
theorem State.ext_fields {s t : State} (hx : s.x = t.x) (hm : s.mem = t.mem) (hp : s.pc = t.pc) (hs : s.sp = t.sp)
    (hf : s.flags = t.flags) (he : s.err = t.err) (hg : s.prog = t.prog) (hq : s.params = t.params) : s = t := by
  cases s
  cases t
  subst hx hm hp hs hf he hg hq
  rfl

@[simp] theorem State.setReg_x (s : State) (r : Reg) (v : Word) : (s.setReg r v).x = s.x.set r v := rfl
@[simp] theorem State.setReg_mem (s : State) (r : Reg) (v : Word) : (s.setReg r v).mem = s.mem := rfl
@[simp] theorem State.setReg_pc (s : State) (r : Reg) (v : Word) : (s.setReg r v).pc = s.pc := rfl
@[simp] theorem State.setReg_sp (s : State) (r : Reg) (v : Word) : (s.setReg r v).sp = s.sp := rfl
@[simp] theorem State.setReg_flags (s : State) (r : Reg) (v : Word) : (s.setReg r v).flags = s.flags := rfl
@[simp] theorem State.setReg_err (s : State) (r : Reg) (v : Word) : (s.setReg r v).err = s.err := rfl
@[simp] theorem State.setReg_prog (s : State) (r : Reg) (v : Word) : (s.setReg r v).prog = s.prog := rfl
@[simp] theorem State.setReg_params (s : State) (r : Reg) (v : Word) : (s.setReg r v).params = s.params := rfl

@[simp] theorem State.setCell_x (s : State) (a : Nat) (v : Word) : (s.setCell a v).x = s.x := rfl
@[simp] theorem State.setCell_mem (s : State) (a : Nat) (v : Word) : (s.setCell a v).mem = s.mem.write a v := rfl
@[simp] theorem State.setCell_pc (s : State) (a : Nat) (v : Word) : (s.setCell a v).pc = s.pc := rfl
@[simp] theorem State.setCell_sp (s : State) (a : Nat) (v : Word) : (s.setCell a v).sp = s.sp := rfl
@[simp] theorem State.setCell_flags (s : State) (a : Nat) (v : Word) : (s.setCell a v).flags = s.flags := rfl
@[simp] theorem State.setCell_err (s : State) (a : Nat) (v : Word) : (s.setCell a v).err = s.err := rfl
@[simp] theorem State.setCell_prog (s : State) (a : Nat) (v : Word) : (s.setCell a v).prog = s.prog := rfl
@[simp] theorem State.setCell_params (s : State) (a : Nat) (v : Word) : (s.setCell a v).params = s.params := rfl

@[simp] theorem State.setPc_x (s : State) (v : Word) : (s.setPc v).x = s.x := rfl
@[simp] theorem State.setPc_mem (s : State) (v : Word) : (s.setPc v).mem = s.mem := rfl
@[simp] theorem State.setPc_pc (s : State) (v : Word) : (s.setPc v).pc = v := rfl
@[simp] theorem State.setPc_sp (s : State) (v : Word) : (s.setPc v).sp = s.sp := rfl
@[simp] theorem State.setPc_flags (s : State) (v : Word) : (s.setPc v).flags = s.flags := rfl
@[simp] theorem State.setPc_err (s : State) (v : Word) : (s.setPc v).err = s.err := rfl
@[simp] theorem State.setPc_prog (s : State) (v : Word) : (s.setPc v).prog = s.prog := rfl
@[simp] theorem State.setPc_params (s : State) (v : Word) : (s.setPc v).params = s.params := rfl

@[simp] theorem State.setSp_x (s : State) (v : Int) : (s.setSp v).x = s.x := rfl
@[simp] theorem State.setSp_mem (s : State) (v : Int) : (s.setSp v).mem = s.mem := rfl
@[simp] theorem State.setSp_pc (s : State) (v : Int) : (s.setSp v).pc = s.pc := rfl
@[simp] theorem State.setSp_sp (s : State) (v : Int) : (s.setSp v).sp = v := rfl
@[simp] theorem State.setSp_flags (s : State) (v : Int) : (s.setSp v).flags = s.flags := rfl
@[simp] theorem State.setSp_err (s : State) (v : Int) : (s.setSp v).err = s.err := rfl
@[simp] theorem State.setSp_prog (s : State) (v : Int) : (s.setSp v).prog = s.prog := rfl
@[simp] theorem State.setSp_params (s : State) (v : Int) : (s.setSp v).params = s.params := rfl

@[simp] theorem State.setFlags_x (s : State) (f : Flags) : (s.setFlags f).x = s.x := rfl
@[simp] theorem State.setFlags_mem (s : State) (f : Flags) : (s.setFlags f).mem = s.mem := rfl
@[simp] theorem State.setFlags_pc (s : State) (f : Flags) : (s.setFlags f).pc = s.pc := rfl
@[simp] theorem State.setFlags_sp (s : State) (f : Flags) : (s.setFlags f).sp = s.sp := rfl
@[simp] theorem State.setFlags_flags (s : State) (f : Flags) : (s.setFlags f).flags = f := rfl
@[simp] theorem State.setFlags_err (s : State) (f : Flags) : (s.setFlags f).err = s.err := rfl
@[simp] theorem State.setFlags_prog (s : State) (f : Flags) : (s.setFlags f).prog = s.prog := rfl
@[simp] theorem State.setFlags_params (s : State) (f : Flags) : (s.setFlags f).params = s.params := rfl

@[simp] theorem State.setErr_x (s : State) (e : Option ErrorRecord) : (s.setErr e).x = s.x := rfl
@[simp] theorem State.setErr_mem (s : State) (e : Option ErrorRecord) : (s.setErr e).mem = s.mem := rfl
@[simp] theorem State.setErr_pc (s : State) (e : Option ErrorRecord) : (s.setErr e).pc = s.pc := rfl
@[simp] theorem State.setErr_sp (s : State) (e : Option ErrorRecord) : (s.setErr e).sp = s.sp := rfl
@[simp] theorem State.setErr_flags (s : State) (e : Option ErrorRecord) : (s.setErr e).flags = s.flags := rfl
@[simp] theorem State.setErr_err (s : State) (e : Option ErrorRecord) : (s.setErr e).err = e := rfl
@[simp] theorem State.setErr_prog (s : State) (e : Option ErrorRecord) : (s.setErr e).prog = s.prog := rfl
@[simp] theorem State.setErr_params (s : State) (e : Option ErrorRecord) : (s.setErr e).params = s.params := rfl

@[simp] theorem State.setProg_x (s : State) (p : List Line) : (s.setProg p).x = s.x := rfl
@[simp] theorem State.setProg_mem (s : State) (p : List Line) : (s.setProg p).mem = s.mem := rfl
@[simp] theorem State.setProg_pc (s : State) (p : List Line) : (s.setProg p).pc = s.pc := rfl
@[simp] theorem State.setProg_sp (s : State) (p : List Line) : (s.setProg p).sp = s.sp := rfl
@[simp] theorem State.setProg_flags (s : State) (p : List Line) : (s.setProg p).flags = s.flags := rfl
@[simp] theorem State.setProg_err (s : State) (p : List Line) : (s.setProg p).err = s.err := rfl
@[simp] theorem State.setProg_prog (s : State) (p : List Line) : (s.setProg p).prog = p := rfl
@[simp] theorem State.setProg_params (s : State) (p : List Line) : (s.setProg p).params = s.params := rfl

@[simp] theorem State.setReg_cell (s : State) (r : Reg) (v : Word) (k : Nat) : (s.setReg r v).cell k = s.cell k := rfl
@[simp] theorem State.setCell_reg (s : State) (a : Nat) (v : Word) (q : Reg) : (s.setCell a v).reg q = s.reg q := rfl
@[simp] theorem State.setPc_reg (s : State) (v : Word) (q : Reg) : (s.setPc v).reg q = s.reg q := rfl
@[simp] theorem State.setPc_cell (s : State) (v : Word) (k : Nat) : (s.setPc v).cell k = s.cell k := rfl
@[simp] theorem State.setSp_reg (s : State) (v : Int) (q : Reg) : (s.setSp v).reg q = s.reg q := rfl
@[simp] theorem State.setSp_cell (s : State) (v : Int) (k : Nat) : (s.setSp v).cell k = s.cell k := rfl
@[simp] theorem State.setFlags_reg (s : State) (f : Flags) (q : Reg) : (s.setFlags f).reg q = s.reg q := rfl
@[simp] theorem State.setFlags_cell (s : State) (f : Flags) (k : Nat) : (s.setFlags f).cell k = s.cell k := rfl
@[simp] theorem State.setErr_reg (s : State) (e : Option ErrorRecord) (q : Reg) : (s.setErr e).reg q = s.reg q := rfl
@[simp] theorem State.setErr_cell (s : State) (e : Option ErrorRecord) (k : Nat) : (s.setErr e).cell k = s.cell k := rfl
@[simp] theorem State.setProg_reg (s : State) (p : List Line) (q : Reg) : (s.setProg p).reg q = s.reg q := rfl
@[simp] theorem State.setProg_cell (s : State) (p : List Line) (k : Nat) : (s.setProg p).cell k = s.cell k := rfl

theorem State.setReg_reg (s : State) (r q : Reg) (v : Word) :
    (s.setReg r v).reg q = if q = r then v else s.reg q := RegFile.get_set s.x r q v

@[simp] theorem State.setReg_reg_self (s : State) (r : Reg) (v : Word) : (s.setReg r v).reg r = v :=
  RegFile.get_set_self s.x r v

end Sys2Proof.Machine
end

