-- ==== Sys2Proof/Laws/Memory.lean ====
section
/-! SUPPORT. The memory: its basic laws, and that every memory operation keeps the canonical form. -/

namespace Sys2Proof.Machine

/-- A canonical memory is canonical from any lower index on. -/
theorem Memory.wfFrom_mono {lo lo' : Nat} (h : lo' ≤ lo) {m : Memory} (hm : Memory.wfFrom lo m = true) :
    Memory.wfFrom lo' m = true := by
  cases m with
  | nil => rfl
  | cons p rest =>
    simp only [Memory.wfFrom, Bool.and_eq_true, decide_eq_true_eq] at hm ⊢
    exact ⟨⟨⟨h.trans hm.1.1.1, hm.1.1.2⟩, hm.1.2⟩, hm.2⟩

/-- Below its first index a canonical memory reads 0. -/
theorem Memory.read_below {lo a : Nat} (h : a < lo) {m : Memory} (hm : Memory.wfFrom lo m = true) : m.read a = 0 := by
  induction m generalizing lo with
  | nil => rfl
  | cons p rest ih =>
    simp only [Memory.wfFrom, Bool.and_eq_true, decide_eq_true_eq] at hm
    have hne : p.1 ≠ a := by omega
    have hr := ih (lo := p.1 + 1) (by omega) hm.2
    simpa [Memory.read, hne] using hr

/-- A canonical memory lists no cell outside 0..127. -/
theorem Memory.read_outside {lo a : Nat} (h : memSize ≤ a) {m : Memory} (hm : Memory.wfFrom lo m = true) :
    m.read a = 0 := by
  induction m generalizing lo with
  | nil => rfl
  | cons p rest ih =>
    simp only [Memory.wfFrom, Bool.and_eq_true, decide_eq_true_eq] at hm
    have hne : p.1 ≠ a := by omega
    simpa [Memory.read, hne] using ih hm.2

/-- A write inside 0..127 keeps the canonical form. -/
theorem Memory.wfFrom_write {lo a : Nat} {m : Memory} {v : Word} (hlo : lo ≤ a) (ha : a < memSize)
    (hm : Memory.wfFrom lo m = true) : Memory.wfFrom lo (m.write a v) = true := by
  induction m generalizing lo with
  | nil =>
    simp only [Memory.write]
    split <;> simp_all [Memory.wfFrom]
  | cons p rest ih =>
    obtain ⟨b, w⟩ := p
    have hm' := hm
    simp only [Memory.wfFrom, Bool.and_eq_true, decide_eq_true_eq] at hm'
    obtain ⟨⟨⟨hb, hb'⟩, hw⟩, hrest⟩ := hm'
    simp only [Memory.write]
    split
    · split
      · exact hm
      · simp_all [Memory.wfFrom]
    · split
      · split
        · exact Memory.wfFrom_mono (by omega) hrest
        · simp_all [Memory.wfFrom]
      · have := ih (lo := b + 1) (by omega) hrest
        simp_all [Memory.wfFrom]

/-- Every write the arbiter can make keeps the canonical form. -/
theorem Memory.wf_write {a : Nat} {m : Memory} {v : Word} (ha : a < memSize) (hm : m.wf = true) :
    (m.write a v).wf = true :=
  Memory.wfFrom_write (Nat.zero_le a) ha hm

theorem Memory.read_writeFrom {lo a k : Nat} {m : Memory} {v : Word} (hm : Memory.wfFrom lo m = true) :
    (m.write a v).read k = if k = a then v else m.read k := by
  induction m generalizing lo with
  | nil =>
    simp only [Memory.write]
    split
    · rename_i hv
      simp [Memory.read, hv]
    · simp only [Memory.read, @eq_comm _ a k]
  | cons p rest ih =>
    obtain ⟨b, w⟩ := p
    simp only [Memory.wfFrom, Bool.and_eq_true, decide_eq_true_eq] at hm
    have ih := ih (lo := b + 1) hm.2
    simp only [Memory.write]
    split
    · rename_i hab
      have hz : Memory.read rest a = 0 := Memory.read_below (by omega) hm.2
      split
      · by_cases hk : k = a
        · subst hk
          simp_all [Memory.read, show b ≠ k by omega]
        · simp [hk]
      · by_cases hk : k = a
        · simp [Memory.read, hk]
        · simp [Memory.read, hk, Ne.symm hk]
    · split
      · rename_i hab
        subst hab
        have hz : Memory.read rest a = 0 := Memory.read_below (by omega) hm.2
        split
        · by_cases hk : k = a
          · subst hk
            simp_all
          · simp [Memory.read, hk, Ne.symm hk]
        · by_cases hk : k = a
          · simp [Memory.read, hk]
          · simp [Memory.read, hk, Ne.symm hk]
      · rename_i hab hne
        by_cases hk : b = k
        · subst hk
          simp [Memory.read, Ne.symm hne]
        · simp [Memory.read, hk, ih]

/-- Reading cell `k` of a canonical memory after a write to cell `a`. -/
theorem Memory.read_write {a k : Nat} {m : Memory} {v : Word} (hm : m.wf = true) :
    (m.write a v).read k = if k = a then v else m.read k :=
  Memory.read_writeFrom hm

/-- The cell of a state after a write. -/
theorem State.cell_setCell {s : State} (hm : s.mem.wf = true) (a k : Nat) (v : Word) :
    (s.setCell a v).cell k = if k = a then v else s.cell k :=
  Memory.read_write hm

/-- What the range test answers. -/
theorem cellOf_eq_some {a : Int} {k : Nat} : cellOf a = some k ↔ 0 ≤ a ∧ a ≤ 127 ∧ (k : Int) = a := by
  unfold cellOf memSize
  split
  · simp only [Option.some.injEq]
    omega
  · simp only [reduceCtorEq, false_iff]
    omega

theorem cellOf_eq_none {a : Int} : cellOf a = none ↔ a < 0 ∨ 127 < a := by
  unfold cellOf memSize
  split
  · simp only [reduceCtorEq, false_iff]
    omega
  · simp only [true_iff]
    omega

/-- Everything an arbiter read can do. -/
theorem memRead_cases (s : State) (a : Int) (e : ExecError) :
    (∃ k, cellOf a = some k ∧ memRead s a e = .ok (s.cell k)) ∨ (cellOf a = none ∧ memRead s a e = .error e) := by
  cases h : cellOf a with
  | some k => exact .inl ⟨k, rfl, by simp [memRead, h]⟩
  | none => exact .inr ⟨rfl, by simp [memRead, h]⟩

/-- Everything an arbiter write can do. -/
theorem memWrite_cases (s : State) (a : Int) (v : Word) (e : ExecError) :
    (∃ k, cellOf a = some k ∧ memWrite s a v e = .ok (s.setCell k v)) ∨
      (cellOf a = none ∧ memWrite s a v e = .error e) := by
  cases h : cellOf a with
  | some k => exact .inl ⟨k, rfl, by simp [memWrite, h]⟩
  | none => exact .inr ⟨rfl, by simp [memWrite, h]⟩

/-- The arbiter's write keeps the canonical form. -/
theorem memWrite_wf {s t : State} {a : Int} {v : Word} {e : ExecError} (hm : s.mem.wf = true)
    (h : memWrite s a v e = .ok t) : t.mem.wf = true := by
  obtain ⟨k, hk, hw⟩ | ⟨-, hw⟩ := memWrite_cases s a v e
  · obtain rfl := Except.ok.inj (hw.symm.trans h)
    have := cellOf_eq_some.mp hk
    exact Memory.wf_write (by unfold memSize; omega) hm
  · simp [hw] at h

end Sys2Proof.Machine
end

