-- ==== Sys2Proof/Laws/Exec.lean ====
section
/-! SUPPORT. One lemma per shared operation of a cycle: resolution, the flag latch, the ALU, the two ends of an instruction,
and what `step` can do. -/

namespace Sys2Proof.Machine

/-! ## Words -/

/-- `wrap` in integers (00_scope R6). -/
theorem toInt_wrap (v : Int) : (wrap v).toInt = (v - intMin) % 2 ^ xlen + intMin := by
  simp only [wrap, BitVec.toInt_ofInt, intMin, xlen, Int.bmod_def]
  norm_num
  split <;> omega

/-- A word's integer is in INT_MIN..INT_MAX. -/
theorem toInt_range (w : Word) : intMin ≤ w.toInt ∧ w.toInt ≤ intMax := by
  have h1 := BitVec.le_toInt w
  have h2 := BitVec.toInt_lt (x := w)
  simp only [intMin, intMax]
  norm_num at h1 h2
  omega

/-- `wrap` of a word's integer is the word. -/
@[simp] theorem wrap_toInt (w : Word) : wrap w.toInt = w := BitVec.ofInt_toInt

/-- On the range of words `wrap` changes nothing (41 R150). -/
theorem toInt_wrap_of_range {v : Int} (h : intMin ≤ v ∧ v ≤ intMax) : (wrap v).toInt = v := by
  rw [toInt_wrap]
  simp only [intMin, intMax, xlen] at *
  omega

/-- The ALU's sum is the adder's. -/
theorem aluAdd_eq (a b : Word) : aluAdd a b = a + b := by
  simp [aluAdd, wrap, BitVec.ofInt_add]

/-- The ALU's difference is the subtractor's. -/
theorem aluSub_eq (a b : Word) : aluSub a b = a - b := by
  apply BitVec.eq_of_toInt_eq
  simp [aluSub, wrap, BitVec.toInt_sub, BitVec.toInt_ofInt]

/-! ## Operands and flags -/

@[simp] theorem resolve_reg (s : State) (r : Reg) : resolve s (.reg r) = s.reg r := rfl

@[simp] theorem resolve_lit (s : State) (v : Word) : resolve s (.lit v) = v := rfl

/-- Resolving the decoded operand is resolving the token (40 R123). -/
theorem resolveToken_eq (s : State) (t : Token) : resolveToken s t = (operandOf t).map (resolve s) := by
  cases hr : regOf t <;> cases hv : intVal t <;> simp [resolveToken, operandOf, hr, hv, Except.map]

/-- A word is 0 exactly when its integer is. -/
theorem beq_zero_iff (r : Word) : (r == 0) = true ↔ r.toInt = 0 := by
  rw [beq_iff_eq, ← BitVec.toInt_inj]
  simp

@[simp] theorem Flags.latch_zero (f : Flags) (r : Word) : (f.latch r).zero = (f.zero || r == 0) := rfl

@[simp] theorem Flags.latch_negative (f : Flags) (r : Word) :
    (f.latch r).negative = (f.negative || decide (r.toInt < 0)) := rfl

@[simp] theorem Flags.latch_carry (f : Flags) (r : Word) : (f.latch r).carry = f.carry := rfl

/-! ## The two ends of an instruction -/

@[simp] theorem complete_jumped (s t : State) : complete s (.ok true t) = t := rfl

@[simp] theorem complete_next (s t : State) : complete s (.ok false t) = t.setPc (t.pc + 1) := rfl

@[simp] theorem complete_error (s : State) (e : ExecError) : complete s (.error e) = raiseError s e := rfl

@[simp] theorem errorRecord_eq (s : State) (e : ExecError) : errorRecord s e = { error := e, pc := s.pc } := rfl

/-- Everything taking an error can do. -/
theorem raiseError_cases (s : State) (e : ExecError) :
    (s.params.errPolicy = .halt ∧ raiseError s e = s.setErr (some { error := e, pc := s.pc })) ∨
      (s.params.errPolicy = .skip ∧ raiseError s e = s.setPc (s.pc + 1)) := by
  cases h : s.params.errPolicy <;> simp [raiseError, h]

/-- Taking an error changes nothing but the latch or `pc`. -/
theorem raiseError_fields (s : State) (e : ExecError) :
    (raiseError s e).x = s.x ∧ (raiseError s e).mem = s.mem ∧ (raiseError s e).sp = s.sp ∧
      (raiseError s e).flags = s.flags ∧ (raiseError s e).prog = s.prog ∧ (raiseError s e).params = s.params := by
  obtain ⟨-, h⟩ | ⟨-, h⟩ := raiseError_cases s e <;> rw [h] <;> exact ⟨rfl, rfl, rfl, rfl, rfl, rfl⟩

/-- Committing changes nothing of the copy but `pc`. -/
theorem complete_ok_fields (s t : State) (jumped : Bool) :
    (complete s (.ok jumped t)).x = t.x ∧ (complete s (.ok jumped t)).mem = t.mem ∧
      (complete s (.ok jumped t)).sp = t.sp ∧ (complete s (.ok jumped t)).flags = t.flags ∧
      (complete s (.ok jumped t)).err = t.err ∧ (complete s (.ok jumped t)).prog = t.prog ∧
      (complete s (.ok jumped t)).params = t.params := by
  cases jumped <;> exact ⟨rfl, rfl, rfl, rfl, rfl, rfl, rfl⟩

/-! ## The cycle -/

/-- Every instruction's cycle is its effect, completed. -/
theorem exec_eq (i : Instr) (s : State) : exec i s = .next (complete s (effectOf i s)) := by
  cases i <;> rfl

/-- Everything an instruction's effect can be: an error of its own, or one of four shapes of change. -/
theorem effectOf_cases (i : Instr) (s : State) :
    (∃ e, effectOf i s = .error e) ∨
      (∃ d r, effectOf i s = .ok false (writeResult s d r)) ∨
      (∃ d v sp, (sp = s.sp ∨ (-1 ≤ s.sp ∧ s.sp ≤ 126 ∧ sp = s.sp + 1)) ∧
        effectOf i s = .ok false ((s.setSp sp).setReg d v)) ∨
      (∃ k v sp, k < memSize ∧ (sp = s.sp ∨ (0 ≤ s.sp ∧ s.sp ≤ 127 ∧ sp = s.sp - 1)) ∧
        effectOf i s = .ok false ((s.setCell k v).setSp sp)) ∨
      (∃ g, effectOf i s = .ok true (s.setPc g)) := by
  cases i with
  | add d o => exact .inr (.inl ⟨_, _, rfl⟩)
  | sub d o => exact .inr (.inl ⟨_, _, rfl⟩)
  | store a o =>
    obtain ⟨k, hk, hw⟩ | ⟨-, hw⟩ := memWrite_cases s (resolve s a).toInt (resolve s o) (.memoryOutOfBounds (resolve s a))
    · have := cellOf_eq_some.mp hk
      refine .inr (.inr (.inr (.inl ⟨k, resolve s o, s.sp, by unfold memSize; omega, .inl rfl, ?_⟩)))
      simp only [effectOf, storeEffect, hw]
      rfl
    · exact .inl ⟨_, by simp only [effectOf, storeEffect, hw]; rfl⟩
  | load d o =>
    obtain ⟨k, -, hr⟩ | ⟨-, hr⟩ := memRead_cases s (resolve s o).toInt (.memoryOutOfBounds (resolve s o))
    · refine .inr (.inr (.inl ⟨d, s.cell k, s.sp, .inl rfl, ?_⟩))
      simp only [effectOf, loadEffect, hr]
      rfl
    · exact .inl ⟨_, by simp only [effectOf, loadEffect, hr]; rfl⟩
  | push o =>
    obtain ⟨k, hk, hw⟩ | ⟨-, hw⟩ := memWrite_cases s s.sp (resolve s o) (.stackOverflow s.sp)
    · have := cellOf_eq_some.mp hk
      refine .inr (.inr (.inr (.inl ⟨k, resolve s o, s.sp - 1, by unfold memSize; omega, .inr ⟨by omega, by omega, rfl⟩, ?_⟩)))
      simp only [effectOf, pushEffect, hw]
    · exact .inl ⟨_, by simp only [effectOf, pushEffect, hw]; rfl⟩
  | pop d =>
    obtain ⟨k, hk, hr⟩ | ⟨-, hr⟩ := memRead_cases s (s.sp + 1) (.stackUnderflow s.sp)
    · have := cellOf_eq_some.mp hk
      refine .inr (.inr (.inl ⟨d, s.cell k, s.sp + 1, .inr ⟨by omega, by omega, rfl⟩, ?_⟩))
      simp only [effectOf, popEffect, hr]
    · exact .inl ⟨_, by simp only [effectOf, popEffect, hr]; rfl⟩
  | jmp o => exact .inr (.inr (.inr (.inr ⟨_, rfl⟩)))

/-- An instruction's effect leaves the latch, the program and the parameters. -/
theorem effectOf_ok_fixed {i : Instr} {s t : State} {jumped : Bool} (h : effectOf i s = .ok jumped t) :
    t.err = s.err ∧ t.prog = s.prog ∧ t.params = s.params := by
  obtain ⟨e, h'⟩ | ⟨d, r, h'⟩ | ⟨d, v, sp, -, h'⟩ | ⟨k, v, sp, -, -, h'⟩ | ⟨g, h'⟩ := effectOf_cases i s
  · rw [h] at h'
    cases h'
  all_goals
    rw [h] at h'
    cases h'
    exact ⟨rfl, rfl, rfl⟩

/-- Which error an instruction's effect raises, and whether it jumps, depends on neither `pc` nor the program (40 R130). -/
theorem effectOf_setPc_setProg (i : Instr) (s : State) (pc : Word) (prog : List Line) :
    (∃ e, effectOf i s = .error e ∧ effectOf i ((s.setPc pc).setProg prog) = .error e) ∨
      (∃ jumped t u, effectOf i s = .ok jumped t ∧ effectOf i ((s.setPc pc).setProg prog) = .ok jumped u) := by
  have hr : ∀ o, resolve ((s.setPc pc).setProg prog) o = resolve s o := fun o => by cases o <;> rfl
  cases i with
  | add d o => exact .inr ⟨_, _, _, rfl, rfl⟩
  | sub d o => exact .inr ⟨_, _, _, rfl, rfl⟩
  | store a o => cases h : cellOf (resolve s a).toInt <;> simp [effectOf, storeEffect, memWrite, hr, h]
  | load d o => cases h : cellOf (resolve s o).toInt <;> simp [effectOf, loadEffect, memRead, hr, h]
  | push o => cases h : cellOf s.sp <;> simp [effectOf, pushEffect, memWrite, hr, h]
  | pop d => cases h : cellOf (s.sp + 1) <;> simp [effectOf, popEffect, memRead, h]
  | jmp o => exact .inr ⟨_, _, _, rfl, rfl⟩

/-- Everything `exec` can do: take the error of the effect, or commit the effect. -/
theorem exec_next {i : Instr} {s t : State} (h : exec i s = .next t) :
    (∃ e, effectOf i s = .error e ∧ t = raiseError s e) ∨
      (∃ jumped u, effectOf i s = .ok jumped u ∧ t = complete s (.ok jumped u)) := by
  rw [exec_eq] at h
  obtain rfl := Host.Outcome.next.inj h
  cases hx : effectOf i s with
  | ok jumped u => exact .inr ⟨jumped, u, rfl, rfl⟩
  | error e => exact .inl ⟨e, rfl, rfl⟩

/-- Everything `Exec` can return to its caller: what `execLine` answers, an error as its record. -/
theorem execReturn_cases (line : Line) (s : State) :
    (∃ jumped t, execLine line s = .ok jumped t ∧ execReturn line s = .ok jumped) ∨
      (∃ e, execLine line s = .error e ∧ execReturn line s = .error { error := e, pc := s.pc }) := by
  cases h : execLine line s with
  | ok jumped t => exact .inl ⟨jumped, t, rfl, by simp [execReturn, h]⟩
  | error e => exact .inr ⟨e, rfl, by simp [execReturn, h]⟩

/-- What RUNNING means (40 R112). -/
theorem status_eq_running {s : State} :
    status s = .running ↔ s.err = none ∧ s.pc.toInt < (s.prog.length : Int) := by
  unfold status
  cases h : s.err with
  | none => simp
  | some r => simp

/-- The one thing a step of a RUNNING core does: complete the cycle's result. -/
theorem step_running {s : State} (h : status s = .running) : step s = .next (complete s (cycleResult s)) := by
  unfold step cycleResult
  rw [h]
  cases hd : fetchDecode s with
  | error e => simp
  | ok i => simp [exec_eq]

/-- Everything a step that answers a next state did. -/
theorem step_next {s t : State} (h : step s = .next t) :
    status s = .running ∧ t = complete s (cycleResult s) := by
  cases hs : status s with
  | running =>
    rw [step_running hs] at h
    exact ⟨rfl, (Host.Outcome.next.inj h).symm⟩
  | halted => simp [step, hs] at h
  | faulted => simp [step, hs] at h

end Sys2Proof.Machine
end

