-- ==== Sys2Proof/Laws/PerInstr.lean ====
section
/-! SUPPORT. Laws stated of every instruction as syntax, one lemma per constructor. -/

namespace Sys2Proof.Laws

/-- The canonical line of an instruction splits into its mnemonic and its operand tokens (30_encoding R82, R83). -/
def EncodedTokens.Statement (i : Instr) : Prop := tokens (encode i) = i.opcode.mnemonic :: i.operandTokens

theorem EncodedTokens.add (d : Reg) (o : Operand) : EncodedTokens.Statement (.add d o) :=
  tokens_append_spaced (mnemonic_isToken .add) (by simp [Instr.operandTokens, name_isToken, token_isToken])

theorem EncodedTokens.sub (d : Reg) (o : Operand) : EncodedTokens.Statement (.sub d o) :=
  tokens_append_spaced (mnemonic_isToken .sub) (by simp [Instr.operandTokens, name_isToken, token_isToken])

theorem EncodedTokens.store (a o : Operand) : EncodedTokens.Statement (.store a o) :=
  tokens_append_spaced (mnemonic_isToken .store) (by simp [Instr.operandTokens, token_isToken])

theorem EncodedTokens.load (d : Reg) (o : Operand) : EncodedTokens.Statement (.load d o) :=
  tokens_append_spaced (mnemonic_isToken .load) (by simp [Instr.operandTokens, name_isToken, token_isToken])

theorem EncodedTokens.push (o : Operand) : EncodedTokens.Statement (.push o) :=
  tokens_append_spaced (mnemonic_isToken .push) (by simp [Instr.operandTokens, token_isToken])

theorem EncodedTokens.pop (d : Reg) : EncodedTokens.Statement (.pop d) :=
  tokens_append_spaced (mnemonic_isToken .pop) (by simp [Instr.operandTokens, name_isToken])

theorem EncodedTokens.jmp (o : Operand) : EncodedTokens.Statement (.jmp o) :=
  tokens_append_spaced (mnemonic_isToken .jmp) (by simp [Instr.operandTokens, token_isToken])

end Sys2Proof.Laws
end

