-- ==== Sys2Proof/Tests/Slice0.lean ====
section
/-! SUPPORT. Small tests, their expected results taken from spec/95_test_vectors.md (the vector is named at each) or worked out
from a rule, and a witness for the hypotheses of every statement that has any. -/

namespace Sys2Proof.Tests

open Sys2Proof.Machine

/-- A core constructed with this hardware's parameters and one line, as the single-line vectors of spec/95 have it. -/
def oneLine (line : Line) : State := State.construct Params.hardware [line]

/-- The state of an outcome, if it is a next state. -/
def stateOf : Host.Outcome State Fault Refusal → Option State
  | .next t => some t
  | .fault _ => none
  | .refused _ => none

def checkAll : Params := { Params.hardware with firstOperandCheck := .all }

def skipping : Params := { Params.hardware with errPolicy := .skip }

/-! ## WellFormed refuses each ill-formed term (40 R120, 00_scope R5) -/

theorem test_wf_store_literal_address : Instr.wf .all (.store (.lit 5) (.reg .r0)) = false := by decide
theorem test_wf_push_literal : Instr.wf .all (.push (.lit 7)) = false := by decide
theorem test_wf_jmp_literal : Instr.wf .all (.jmp (.lit 3)) = false := by decide
theorem test_wf_per_opcode : Instr.wf .perOpcode (.store (.lit 5) (.reg .r0)) = true := by decide
theorem test_wf_program_too_long : programLengthOk 2147483648 = false := by decide
theorem test_wf_program_longest : programLengthOk 2147483647 = true := by decide
theorem test_wf_line_too_long : lineLengthOk (some 3) [0x4A, 0x4D, 0x50, 0x20] = false := by decide
theorem test_wf_program_line :
    programWf { Params.hardware with lineMax := some 1 } [[0x20], [0x20, 0x20]] = false := by decide

/-! ## Decoding: the lines of spec/95, byte by byte -/

/-- P1 line 1, P2 lines 6, 7 and 8, P6 line 1, P7 lines 0 and 1. -/
theorem test_decode_program_lines :
    decode .perOpcode [0x41, 0x44, 0x44, 0x20, 0x52, 0x30, 0x20, 0x52, 0x30] = .ok (.add .r0 (.reg .r0)) ∧
    decode .perOpcode [0x53, 0x54, 0x4F, 0x52, 0x45, 0x20, 0x35, 0x20, 0x52, 0x30] = .ok (.store (.lit 5) (.reg .r0)) ∧
    decode .perOpcode [0x4C, 0x4F, 0x41, 0x44, 0x20, 0x52, 0x32, 0x20, 0x35] = .ok (.load .r2 (.lit 5)) ∧
    decode .perOpcode [0x53, 0x54, 0x4F, 0x52, 0x45, 0x20, 0x52, 0x32, 0x20, 0x52, 0x31] =
      .ok (.store (.reg .r2) (.reg .r1)) ∧
    decode .perOpcode [0x50, 0x4F, 0x50, 0x20, 0x52, 0x31] = .ok (.pop .r1) ∧
    decode .perOpcode [0x41, 0x44, 0x44, 0x20, 0x52, 0x30, 0x20, 0x2D, 0x31] = .ok (.add .r0 (.lit (-1))) ∧
    decode .perOpcode [0x4A, 0x4D, 0x50, 0x20, 0x52, 0x30] = .ok (.jmp (.reg .r0)) := by decide

/-- P1 line 3 and P4 line 0. -/
theorem test_decode_sub_push :
    decode .perOpcode [0x53, 0x55, 0x42, 0x20, 0x52, 0x30, 0x20, 0x31, 0x30] = .ok (.sub .r0 (.lit 10)) ∧
    decode .perOpcode [0x50, 0x55, 0x53, 0x48, 0x20, 0x33] = .ok (.push (.lit 3)) := by decide

/-- E33: tabs, a line feed and trailing spaces around the tokens of `ADD R0 5`. -/
theorem test_decode_whitespace :
    decode .perOpcode [0x09, 0x41, 0x44, 0x44, 0x09, 0x20, 0x52, 0x30, 0x20, 0x0A, 0x20, 0x35, 0x20] =
      .ok (.add .r0 (.lit 5)) := by decide

/-- E1, E2, E3, E4: fewer than two tokens, whatever the token is. -/
theorem test_decode_too_few_tokens :
    decode .perOpcode [] = .error (.malformedInstruction []) ∧
    decode .perOpcode [0x20, 0x20, 0x20] = .error (.malformedInstruction [0x20, 0x20, 0x20]) ∧
    decode .perOpcode [0x41, 0x44, 0x44] = .error (.malformedInstruction [0x41, 0x44, 0x44]) ∧
    decode .perOpcode [0x46, 0x4F, 0x4F] = .error (.malformedInstruction [0x46, 0x4F, 0x4F]) := by decide

/-- E5 and E7: `FOO R0 1`, `ADDX R0 1`. -/
theorem test_decode_unknown_opcode :
    decode .perOpcode [0x46, 0x4F, 0x4F, 0x20, 0x52, 0x30, 0x20, 0x31] = .error (.unknownOpcode [0x46, 0x4F, 0x4F]) ∧
    decode .perOpcode [0x41, 0x44, 0x44, 0x58, 0x20, 0x52, 0x30, 0x20, 0x31] =
      .error (.unknownOpcode [0x41, 0x44, 0x44, 0x58]) := by decide

/-- E12 `POP 5` and E14 `ADD R9`: check 3 comes before the operand count. -/
theorem test_decode_invalid_register :
    decode .perOpcode [0x50, 0x4F, 0x50, 0x20, 0x35] = .error (.invalidRegister [0x35]) ∧
    decode .perOpcode [0x41, 0x44, 0x44, 0x20, 0x52, 0x39] = .error (.invalidRegister [0x52, 0x39]) := by decide

/-- E18 `POP R0 R1` and E21 `STORE 5`. -/
theorem test_decode_wrong_count :
    decode .perOpcode [0x50, 0x4F, 0x50, 0x20, 0x52, 0x30, 0x20, 0x52, 0x31] =
      .error (.malformedInstruction [0x50, 0x4F, 0x50, 0x20, 0x52, 0x30, 0x20, 0x52, 0x31]) ∧
    decode .perOpcode [0x53, 0x54, 0x4F, 0x52, 0x45, 0x20, 0x35] =
      .error (.malformedInstruction [0x53, 0x54, 0x4F, 0x52, 0x45, 0x20, 0x35]) := by decide

/-- E31 `STORE x y`, E29 `JMP +3`, E27 `ADD R0 -`. -/
theorem test_decode_invalid_operand :
    decode .perOpcode [0x53, 0x54, 0x4F, 0x52, 0x45, 0x20, 0x78, 0x20, 0x79] = .error (.invalidOperand [0x78]) ∧
    decode .perOpcode [0x4A, 0x4D, 0x50, 0x20, 0x2B, 0x33] = .error (.invalidOperand [0x2B, 0x33]) ∧
    decode .perOpcode [0x41, 0x44, 0x44, 0x20, 0x52, 0x30, 0x20, 0x2D] = .error (.invalidOperand [0x2D]) := by decide

/-- `STORE 5 R0` under FIRST_OPERAND_CHECK = all (S3, end of 2.5). -/
theorem test_decode_check_all :
    decode .all [0x53, 0x54, 0x4F, 0x52, 0x45, 0x20, 0x35, 0x20, 0x52, 0x30] = .error (.invalidRegister [0x35]) ∧
    decode .all [0x4A, 0x4D, 0x50, 0x20, 0x52, 0x30] = .ok (.jmp (.reg .r0)) := by decide

/-- A10, A11, M14, M15: the literals 2147483648, -2147483648, -0 and 007. -/
theorem test_literals :
    intVal [0x32, 0x31, 0x34, 0x37, 0x34, 0x38, 0x33, 0x36, 0x34, 0x38] = none ∧
    intVal [0x2D, 0x32, 0x31, 0x34, 0x37, 0x34, 0x38, 0x33, 0x36, 0x34, 0x38] = some 0x80000000 ∧
    intVal [0x2D, 0x30] = some 0 ∧ intVal [0x30, 0x30, 0x37] = some 7 := by decide

/-- The seven numbers of opcode_table.json, with operands of index zero (log 9). -/
theorem test_table_numbers :
    decodeTableWord 24 0x414444 = some (.add .r0 (.reg .r0)) ∧
    decodeTableWord 24 0x535542 = some (.sub .r0 (.reg .r0)) ∧
    decodeTableWord 40 0x53544F5245 = some (.store (.reg .r0) (.reg .r0)) ∧
    decodeTableWord 32 0x4C4F4144 = some (.load .r0 (.reg .r0)) ∧
    decodeTableWord 32 0x50555348 = some (.push (.reg .r0)) ∧
    decodeTableWord 24 0x504F50 = some (.pop .r0) ∧
    decodeTableWord 24 0x4A4D50 = some (.jmp (.reg .r0)) := by decide

/-! ## One step each -/

/-- A7: ADD R0 1 from 2147483647 wraps and sets NEGATIVE, not CARRY. -/
theorem test_add_wraps :
    (stateOf (exec (.add .r0 (.lit 1)) ((oneLine []).setReg .r0 0x7FFFFFFF))).map (fun t => (t.reg .r0, t.flags, t.pc)) =
      some (0x80000000, { zero := false, negative := true, carry := false }, 1) := by decide

/-- A20 and S4: a positive result clears no flag. -/
theorem test_add_flags_sticky :
    (stateOf (exec (.add .r0 (.lit 5)) ((oneLine []).setFlags { zero := true, negative := true, carry := false }))).map
      (fun t => (t.reg .r0, t.flags)) = some (5, { zero := true, negative := true, carry := false }) := by decide

/-- A17: the operation is dest minus src. -/
theorem test_sub_order :
    (stateOf (exec (.sub .r0 (.reg .r1)) (((oneLine []).setReg .r0 10).setReg .r1 3))).map (fun t => (t.reg .r0, t.reg .r1)) =
      some (7, 3) := by decide

/-- A14: SUB of a register from itself sets ZERO. -/
theorem test_sub_self :
    (stateOf (exec (.sub .r2 (.reg .r2)) ((oneLine []).setReg .r2 77))).map (fun t => (t.reg .r2, t.flags.zero)) =
      some (0, true) := by decide

/-- M1: the first operand is the address. -/
theorem test_store_direction :
    (stateOf (exec (.store (.lit 5) (.reg .r0)) ((oneLine []).setReg .r0 42))).map (fun t => (t.mem, t.reg .r0)) =
      some ([(5, 42)], 42) := by decide

/-- M6: index 128 does not exist; the record names the line and the index. -/
theorem test_store_out_of_bounds :
    (stateOf (exec (.store (.lit 128) (.lit 1)) (oneLine []))).map (fun t => (t.mem, t.pc, t.err)) =
      some ([], 0, some { error := .memoryOutOfBounds 128, pc := 0 }) := by decide

/-- M9: the old register is the address. -/
theorem test_load_same_register :
    (stateOf (exec (.load .r1 (.reg .r1)) (((oneLine []).setReg .r1 3).setCell 3 99))).map (fun t => t.reg .r1) =
      some 99 := by decide

/-- M10: LOAD of a never-written cell gives 0 and sets no flag. -/
theorem test_load_sets_no_flag :
    (stateOf (exec (.load .r2 (.lit 0)) ((oneLine []).setReg .r2 5))).map (fun t => (t.reg .r2, t.flags.zero)) =
      some (0, false) := by decide

/-- K3: PUSH at index 0 succeeds. -/
theorem test_push_last_cell :
    (stateOf (exec (.push (.lit (-3))) ((oneLine []).setSp 0))).map (fun t => (t.mem, t.sp, t.err)) =
      some ([(0, -3)], -1, none) := by decide

/-- K4: PUSH on a full stack. -/
theorem test_push_overflow :
    (stateOf (exec (.push (.lit 1)) ((oneLine []).setSp (-1)))).map (fun t => (t.mem, t.sp, t.err)) =
      some ([], -1, some { error := .stackOverflow (-1), pc := 0 }) := by decide

/-- K5: the popped cell keeps its value. -/
theorem test_pop_keeps_cell :
    (stateOf (exec (.pop .r1) (((oneLine []).setCell 127 11).setSp 126))).map (fun t => (t.reg .r1, t.sp, t.mem)) =
      some (11, 127, [(127, 11)]) := by decide

/-- K6: POP on an empty stack. -/
theorem test_pop_underflow :
    (stateOf (exec (.pop .r1) (oneLine []))).map (fun t => (t.sp, errCode t.err)) = some (127, 7) := by decide

/-- J1: the target is not tested and not clamped, and the core is HALTED. -/
theorem test_jmp_past_end :
    (stateOf (exec (.jmp (.reg .r0)) ((oneLine []).setReg .r0 3))).map (fun t => (t.pc, status t)) =
      some (3, .halted) := by decide

/-- J5: a JMP to -1 succeeds; the next step takes PcOutOfRange. -/
theorem test_jmp_negative :
    ((stateOf (exec (.jmp (.lit (-1))) (oneLine []))).bind fun t => (stateOf (step t)).map fun u =>
      (status t, u.pc, u.err, status u)) =
      some (.running, -1, some { error := .pcOutOfRange (-1), pc := -1 }, .faulted) := by decide

/-- P6 and P7: the error records `(7, StackUnderflow, pc = 1, info = 127)` and `(8, PcOutOfRange, pc = -1, info = -1)`. -/
theorem test_error_record_views :
    errCode (some { error := .stackUnderflow 127, pc := 1 }) = 7 ∧ errorKind (.stackUnderflow 127) = .stackUnderflow ∧
    errorInfo (.stackUnderflow 127) = .number 127 ∧ errCode (some { error := .pcOutOfRange (-1), pc := -1 }) = 8 ∧
    errorInfo (.pcOutOfRange (-1)) = .number (-1) ∧ errCode none = 0 := by decide

/-- 60 R210, 40 R130: `Exec` on a line outside the program, at a `pc` past its end, records the current `pc`. -/
theorem test_exec_outside_program :
    execReturn [0x53, 0x54, 0x4F, 0x52, 0x45, 0x20, 0x31, 0x32, 0x38, 0x20, 0x31] ((oneLine []).setPc 9) =
      .error { error := .memoryOutOfBounds 128, pc := 9 } ∧
    execReturn [0x46, 0x4F, 0x4F, 0x20, 0x31] ((oneLine []).setPc (-1)) =
      .error { error := .unknownOpcode [0x46, 0x4F, 0x4F], pc := -1 } := by decide

/-- 10_state R21: exactly NREG registers. -/
theorem test_registers : registers.length = numRegs ∧ ∀ r : Reg, r ∈ registers :=
  ⟨by decide, fun r => by cases r <;> decide⟩

/-! ## The whole step -/

/-- A1: `ADD R0 5` from reset. -/
theorem test_step_add :
    (stateOf (step (oneLine [0x41, 0x44, 0x44, 0x20, 0x52, 0x30, 0x20, 0x35]))).map
      (fun t => (t.reg .r0, t.pc, status t, t.err)) = some (5, 1, .halted, none) := by decide

/-- E5: an illegal line is latched and returned, and nothing else changes. -/
theorem test_step_illegal_line :
    (stateOf (step (oneLine [0x46, 0x4F, 0x4F, 0x20, 0x52, 0x30, 0x20, 0x31]))).map (fun t => (t.pc, errCode t.err, status t)) =
      some (0, 2, .faulted) ∧
    stepReturn (oneLine [0x46, 0x4F, 0x4F, 0x20, 0x52, 0x30, 0x20, 0x31]) =
      .error { error := .unknownOpcode [0x46, 0x4F, 0x4F], pc := 0 } := by decide

/-- P6 under ERR_POLICY = skip: POP on an empty stack is reported and the core goes on. -/
theorem test_step_skip_policy :
    (stateOf (step (State.construct skipping [[0x50, 0x4F, 0x50, 0x20, 0x52, 0x31]]))).map (fun t => (t.pc, t.err)) =
      some (1, none) := by decide

/-- J7: an empty program is HALTED at reset, and no step exists. -/
theorem test_reset_halted : status State.reset = .halted ∧ stateOf (step State.reset) = none := by decide

/-- The host's placement: the very next step runs the table's POP, which finds the stack of the reset state empty. -/
theorem test_placed_word_runs :
    (stateOf (step (State.reset.withFetchWord 24 0x504F50))).map (fun t => (t.sp, t.pc, errCode t.err)) =
      some (127, 0, 7) := by decide

/-- 10_state R28 and 40 R129 on the reset state. -/
theorem test_observe_reset :
    (observe State.reset).mem = List.replicate 128 0 ∧ State.reset.flags.packed = 0 := by decide

/-! ## Witnesses: a concrete state and operands that meet all hypotheses of a statement, boundary values where it has a range -/

theorem witness_ConstructedStateHoldsResetValues :
    0 < (State.construct Params.hardware [[]]).prog.length ∧ (State.construct Params.hardware []).prog.length = 0 := by decide

theorem witness_ResetMeetsInvariant : programWf Params.hardware [[0x20]] = true := by decide

theorem witness_DecodeEncodeRoundTrip :
    Instr.wf .all (.store (.reg .r3) (.lit (-2147483648))) = true ∧ Instr.wf .perOpcode (.jmp (.lit 2147483647)) = true := by
  decide

theorem witness_DecodedInstructionIsWellFormed :
    decode .all [0x50, 0x55, 0x53, 0x48, 0x20, 0x52, 0x33] = .ok (.push (.reg .r3)) := by decide

theorem witness_TokensAreMaximalRuns :
    (∀ p ∈ ([([], [0x41]), ([0x20], [0x42])] : List (Line × Token)),
      (∀ c ∈ p.1, isSpace c = true) ∧ p.2 ≠ [] ∧ ∀ c ∈ p.2, isSpace c = false) ∧
    (∀ p ∈ ([([], [0x41]), ([0x20], [0x42])] : List (Line × Token)).tail, p.1 ≠ []) ∧
    (∀ c ∈ ([0x0D] : Line), isSpace c = true) := by decide

/-- `ADD`, `FOO x`, `ADD 5`, and `PUSH 1 2` under each setting's condition of the last clause. -/
theorem witness_ValidationChecksInOrder :
    (tokens [0x41, 0x44, 0x44]).length < 2 ∧
    tokens [0x46, 0x4F, 0x4F, 0x20, 0x78] = [[0x46, 0x4F, 0x4F], [0x78]] ∧ opcodeOf [0x46, 0x4F, 0x4F] = none ∧
    tokens [0x41, 0x44, 0x44, 0x20, 0x35] = [[0x41, 0x44, 0x44], [0x35]] ∧ opcodeOf [0x41, 0x44, 0x44] = some .add ∧
    regOf [0x35] = none ∧ (State.construct checkAll []).params.firstOperandCheck = .all ∧
    tokens [0x50, 0x55, 0x53, 0x48, 0x20, 0x31, 0x20, 0x32] = [[0x50, 0x55, 0x53, 0x48], [0x31], [0x32]] ∧
    opcodeOf [0x50, 0x55, 0x53, 0x48] = some .push ∧ State.reset.params.firstOperandCheck = .perOpcode := by decide

theorem witness_ResolveReadsRegisterOrLiteral :
    regOf [0x52, 0x33] = some .r3 ∧ intVal [0x2D, 0x31] = some (-1) ∧ regOf [0x78] = none ∧ intVal [0x78] = none ∧
    operandOf [0x30] = .ok (.lit 0) := by decide

/-- `ADD R0 x`, `STORE 500 x`, `STORE x 1` and `JMP x`. -/
theorem witness_OperandErrorsInTokenOrder :
    tokens [0x41, 0x44, 0x44, 0x20, 0x52, 0x30, 0x20, 0x78] = [Opcode.add.mnemonic, [0x52, 0x30], [0x78]] ∧
    regOf [0x52, 0x30] ≠ none ∧ regOf [0x78] = none ∧ intVal [0x78] = none ∧
    tokens [0x53, 0x54, 0x4F, 0x52, 0x45, 0x20, 0x35, 0x30, 0x30, 0x20, 0x78] =
      [Opcode.store.mnemonic, [0x35, 0x30, 0x30], [0x78]] ∧ intVal [0x35, 0x30, 0x30] ≠ none ∧
    tokens [0x53, 0x54, 0x4F, 0x52, 0x45, 0x20, 0x78, 0x20, 0x31] = [Opcode.store.mnemonic, [0x78], [0x31]] ∧
    tokens [0x4A, 0x4D, 0x50, 0x20, 0x78] = [Opcode.jmp.mnemonic, [0x78]] ∧
    State.reset.params.firstOperandCheck = .perOpcode := by decide

theorem witness_ExecRefinesPseudocode :
    (-1 ≤ (State.reset.setSp (-1)).sp ∧ (State.reset.setSp (-1)).sp ≤ 127) ∧ -1 ≤ State.reset.sp ∧ State.reset.sp ≤ 127 := by
  decide

/-- The extreme words meet the range premises only together with a small one. -/
theorem witness_AluWraps :
    (-2147483648 ≤ (0x80000000 : Word).toInt + (0 : Word).toInt ∧ (0x80000000 : Word).toInt + (0 : Word).toInt ≤ 2147483647) ∧
    (-2147483648 ≤ (0x7FFFFFFF : Word).toInt - (0 : Word).toInt ∧ (0x7FFFFFFF : Word).toInt - (0 : Word).toInt ≤ 2147483647) := by
  decide

/-- Indices 0 and 127. -/
theorem witness_StoreWritesOneCell :
    State.reset.mem.wf = true ∧ 0 ≤ (resolve State.reset (.lit 0)).toInt ∧ (resolve State.reset (.lit 0)).toInt ≤ 127 ∧
    0 ≤ (resolve State.reset (.lit 127)).toInt ∧ (resolve State.reset (.lit 127)).toInt ≤ 127 := by decide

theorem witness_LoadReadsOneCell :
    0 ≤ (resolve State.reset (.reg .r0)).toInt ∧ (resolve State.reset (.reg .r0)).toInt ≤ 127 ∧
    0 ≤ (resolve State.reset (.lit 127)).toInt ∧ (resolve State.reset (.lit 127)).toInt ≤ 127 := by decide

theorem witness_PushStoresThenDecrements :
    State.reset.mem.wf = true ∧ 0 ≤ State.reset.sp ∧ State.reset.sp ≤ 127 ∧
    0 ≤ (State.reset.setSp 0).sp ∧ (State.reset.setSp 0).sp ≤ 127 := by decide

theorem witness_PopIncrementsThenLoads :
    (-1 ≤ (State.reset.setSp (-1)).sp ∧ (State.reset.setSp (-1)).sp ≤ 126) ∧
    -1 ≤ (State.reset.setSp 126).sp ∧ (State.reset.setSp 126).sp ≤ 126 := by decide

/-- Indices -1 and 128, under both policies. -/
theorem witness_OutOfRangeIndexTakesError :
    (resolve State.reset (.lit (-1))).toInt < 0 ∧ (resolve State.reset (.lit 128)).toInt > 127 ∧
    State.reset.params.errPolicy = .halt ∧ (State.construct skipping []).params.errPolicy = .skip ∧
    (resolve (State.construct skipping []) (.lit 128)).toInt > 127 := by decide

theorem witness_PushOnFullStackTakesError :
    (State.reset.setSp (-1)).sp < 0 ∧ (State.reset.setSp (-1)).params.errPolicy = .halt ∧
    ((State.construct skipping []).setSp (-1)).sp < 0 ∧
    ((State.construct skipping []).setSp (-1)).params.errPolicy = .skip := by decide

theorem witness_PopOnEmptyStackTakesError :
    State.reset.sp + 1 > 127 ∧ State.reset.params.errPolicy = .halt ∧
    (State.construct skipping []).sp + 1 > 127 ∧ (State.construct skipping []).params.errPolicy = .skip := by decide

/-- Each instruction's own error, and a line's. -/
theorem witness_ErrorsAreTheInstructionsOwn :
    effectOf (.store (.lit 128) (.lit 0)) State.reset = .error (.memoryOutOfBounds 128) ∧
    effectOf (.load .r0 (.lit (-1))) State.reset = .error (.memoryOutOfBounds (-1)) ∧
    effectOf (.push (.lit 0)) (State.reset.setSp (-1)) = .error (.stackOverflow (-1)) ∧
    effectOf (.pop .r0) State.reset = .error (.stackUnderflow 127) ∧
    execLine [] State.reset = .error (.malformedInstruction []) := by decide

theorem witness_AddThenSubRestoresRegister : Operand.reg .r1 ≠ .reg .r0 ∧ Operand.lit 5 ≠ .reg .r0 := by decide

theorem witness_PushThenPopRestores :
    State.reset.mem.wf = true ∧ 0 ≤ State.reset.sp ∧ State.reset.sp ≤ 127 ∧ 0 ≤ (State.reset.setSp 0).sp := by decide

/-- STORE 5 R0, then PUSH R1 and STORE 6 1, then LOAD from 5. -/
theorem witness_LoadReturnsLastStore :
    State.reset.mem.wf = true ∧ 0 ≤ (resolve State.reset (.lit 5)).toInt ∧ (resolve State.reset (.lit 5)).toInt ≤ 127 ∧
    leavesCellAll (resolve State.reset (.lit 5)).toInt (afterExec State.reset (.store (.lit 5) (.reg .r0)))
      [.push (.reg .r1), .store (.lit 6) (.lit 1)] ∧
    resolve (afterAll (afterExec State.reset (.store (.lit 5) (.reg .r0))) [.push (.reg .r1), .store (.lit 6) (.lit 1)])
      (.lit 5) = resolve State.reset (.lit 5) := by
  refine ⟨by decide, by decide, by decide, ⟨?_, ?_, trivial⟩, by decide⟩
  · show (127 : Int) ≠ 5
    decide
  · show (6 : Word).toInt ≠ (5 : Word).toInt
    decide

theorem witness_StackHolds128Words :
    State.reset.sp = 127 ∧ State.reset.err = none ∧ State.reset.params.errPolicy = .halt ∧ 0 ≤ 128 ∧ 128 ≤ 128 := by decide

/-- A state of each status. -/
theorem witness_StepStopsByNameOtherwise :
    status (oneLine []) = .running ∧ status State.reset = .halted ∧
    status (State.reset.setErr (some { error := .unknownOpcode [], pc := 0 })) = .faulted := by decide

/-- `POP R1` at line 0. -/
theorem witness_StepRunsDecodedInstruction :
    (oneLine [0x50, 0x4F, 0x50, 0x20, 0x52, 0x31]).err = none ∧
    0 ≤ (oneLine [0x50, 0x4F, 0x50, 0x20, 0x52, 0x31]).pc.toInt ∧
    (oneLine [0x50, 0x4F, 0x50, 0x20, 0x52, 0x31]).prog[0]? = some [0x50, 0x4F, 0x50, 0x20, 0x52, 0x31] ∧
    (oneLine [0x50, 0x4F, 0x50, 0x20, 0x52, 0x31]).pc.toInt <
      ((oneLine [0x50, 0x4F, 0x50, 0x20, 0x52, 0x31]).prog.length : Int) ∧
    decode Params.hardware.firstOperandCheck [0x50, 0x4F, 0x50, 0x20, 0x52, 0x31] = .ok (.pop .r1) := by decide

/-- A state that is not RUNNING; a negative `pc`; a line that jumps, one that falls through, one that fails under each policy. -/
theorem witness_StepFetchesExecutesCommits :
    status State.reset ≠ .running ∧ status (State.reset.setPc (-1)) = .running ∧ (State.reset.setPc (-1)).pc.toInt < 0 ∧
    status (oneLine []) = .running ∧ 0 ≤ (oneLine []).pc.toInt ∧
    execLine [0x4A, 0x4D, 0x50, 0x20, 0x33] (oneLine []) = .ok true ((oneLine []).setPc 3) ∧
    execLine [0x50, 0x55, 0x53, 0x48, 0x20, 0x30] (oneLine []) = .ok false ((oneLine []).setSp 126) ∧
    execLine [] (oneLine []) = .error (.malformedInstruction []) ∧ (oneLine []).params.errPolicy = .halt ∧
    execLine [] (State.construct skipping [[]]) = .error (.malformedInstruction []) ∧
    status (State.construct skipping [[]]) = .running := by decide

theorem witness_NegativeJumpFaultsOneStepLater :
    State.reset.err = none ∧ State.reset.params.errPolicy = .halt ∧ (resolve State.reset (.lit (-1))).toInt < 0 := by decide

theorem witness_JumpPastEndHalts :
    (oneLine []).err = none ∧ (resolve (oneLine []) (.lit 1)).toInt ≥ ((oneLine []).prog.length : Int) := by decide

theorem witness_ErrorChangesOnlyLatchOrPc :
    stepReturn (oneLine []) = .error { error := .malformedInstruction [], pc := 0 } ∧
    (oneLine []).params.errPolicy = .halt ∧
    stepReturn (State.construct skipping [[]]) = .error { error := .malformedInstruction [], pc := 0 } ∧
    (State.construct skipping [[]]).params.errPolicy = .skip := by decide

theorem witness_StepReturnAgreesWithStep :
    stepReturn State.reset = .refused .halted ∧ stepReturn (oneLine [0x4A, 0x4D, 0x50, 0x20, 0x33]) = .ok ∧
    stepReturn (oneLine []) = .error { error := .malformedInstruction [], pc := 0 } ∧
    (oneLine []).params.errPolicy = .halt := by decide

theorem witness_OtherInstructionsFallThrough :
    effectOf (.push (.lit 0)) State.reset = .ok false (State.reset.setSp 126) ∧
    effectOf (.jmp (.lit 3)) State.reset = .ok true (State.reset.setPc 3) ∧
    (Instr.push (.lit 0)).opcode ≠ .jmp := by decide

/-- `oneLine l` meets the invariant, for any line. -/
theorem oneLine_inv (line : Line) : (oneLine line).Inv where
  sp_low := by simp [oneLine, State.construct, spInit]
  sp_high := by simp [oneLine, State.construct, spInit]
  carry_clear := rfl
  mem_wf := rfl
  prog_wf := by simp [oneLine, State.construct, programWf, programLengthOk, lineLengthOk, Params.hardware, intMax]
  err_at_pc := by simp [oneLine, State.construct]
  err_latched := fun _ => rfl

/-- `PUSH 0` at line 0, whose step adds 1 to `pc`. -/
theorem witness_PcIncrementNeverWraps : ∃ s t : State, s.Inv ∧ step s = .next t ∧ t.pc = s.pc + 1 :=
  ⟨_, _, oneLine_inv [0x50, 0x55, 0x53, 0x48, 0x20, 0x30], rfl, rfl⟩

theorem witness_StepKeepsInvariant : ∃ s t : State, s.Inv ∧ step s = .next t :=
  ⟨_, _, oneLine_inv [0x50, 0x55, 0x53, 0x48, 0x20, 0x30], rfl⟩

theorem witness_ProgramAndParametersFixed :
    ∃ t, step (oneLine [0x50, 0x55, 0x53, 0x48, 0x20, 0x30]) = .next t := ⟨_, rfl⟩

theorem witness_StepChangesOneCellAtMost :
    (oneLine [0x50, 0x55, 0x53, 0x48, 0x20, 0x37]).mem.wf = true ∧
    fetchDecode (oneLine [0x50, 0x55, 0x53, 0x48, 0x20, 0x37]) = .ok (.push (.lit 7)) ∧
    (∃ t, fetchDecode (oneLine [0x53, 0x54, 0x4F, 0x52, 0x45, 0x20, 0x30, 0x20, 0x38]) = .ok (.store (.lit 0) (.lit 8)) ∧
      step (oneLine [0x53, 0x54, 0x4F, 0x52, 0x45, 0x20, 0x30, 0x20, 0x38]) = .next t ∧ t.cell 0 = 8) ∧
    fetchDecode (oneLine [0x4A, 0x4D, 0x50, 0x20, 0x33]) = .ok (.jmp (.lit 3)) ∧
    stepReturn (oneLine []) = .error { error := .malformedInstruction [], pc := 0 } ∧
    (∃ t, step (oneLine [0x50, 0x55, 0x53, 0x48, 0x20, 0x37]) = .next t ∧ t.cell 127 = 7) ∧
    (Instr.pop .r0).opcode ≠ .store ∧ (Instr.pop .r0).opcode ≠ .push ∧
    ∃ t, exec (.pop .r0) (State.reset.setSp 126) = .next t :=
  ⟨by decide, by decide, ⟨_, by decide, rfl, by decide⟩, by decide, by decide, ⟨_, rfl, by decide⟩, by decide, by decide,
    _, rfl⟩

/-- A step from a state whose ZERO and NEGATIVE are set, and an instruction other than ADD and SUB. -/
theorem witness_FlagsAreSticky :
    (∃ t, step ((oneLine [0x41, 0x44, 0x44, 0x20, 0x52, 0x30, 0x20, 0x35]).setFlags
      { zero := true, negative := true, carry := false }) = .next t ∧ t.reg .r0 = 5) ∧
    (∃ t, exec (.sub .r1 (.lit 1)) State.reset = .next t ∧ (t.reg .r1).toInt < 0) ∧
    (∃ t, exec (.add .r1 (.lit 0)) State.reset = .next t ∧ (t.reg .r1).toInt = 0) ∧
    (Instr.load .r0 (.lit 0)).opcode ≠ .add ∧ (Instr.load .r0 (.lit 0)).opcode ≠ .sub ∧
    ∃ t, exec (.load .r0 (.lit 0)) State.reset = .next t :=
  ⟨⟨_, rfl, by decide⟩, ⟨_, rfl, by decide⟩, ⟨_, rfl, by decide⟩, by decide, by decide, _, rfl⟩

theorem witness_OnlyStackInstructionsMoveSp :
    (∃ t, exec (.push (.lit 1)) State.reset = .next t ∧ t.sp = 126) ∧
    (∃ t, exec (.pop .r0) (State.reset.setSp 126) = .next t ∧ t.sp = 127) ∧
    ∃ t, exec (.jmp (.lit 0)) State.reset = .next t :=
  ⟨⟨_, rfl, by decide⟩, ⟨_, rfl, by decide⟩, _, rfl⟩

theorem witness_OnlyDestinationRegisterWritten :
    ∃ t, exec (.add .r1 (.lit 1)) State.reset = .next t ∧ t.reg .r1 ≠ State.reset.reg .r1 := ⟨_, rfl, by decide⟩

theorem witness_ErrorLatchWrittenOnce :
    ∃ t, step (oneLine []) = .next t ∧ t.err ≠ none := ⟨_, rfl, by decide⟩

theorem witness_CanonicalMemoriesAreEqual :
    ∃ m n : Memory, m.wf = true ∧ n.wf = true ∧ m ≠ [] ∧ ∀ a, m.read a = n.read a :=
  ⟨[(0, 1), (127, 2)], [(0, 1), (127, 2)], by decide, by decide, by decide, fun _ => rfl⟩

theorem witness_ObserveShowsWholeState : 0 < 128 ∧ 127 < 128 := by decide

theorem witness_NoHiddenState :
    ∃ s t : State, s.Inv ∧ t.Inv ∧ s.prog = t.prog ∧ s.params = t.params ∧ observe s = observe t :=
  ⟨oneLine [], oneLine [], oneLine_inv _, oneLine_inv _, rfl, rfl, rfl⟩

/-- `JMP 0` at line 0 (J2). -/
theorem witness_JumpToItselfLoops :
    status (oneLine [0x4A, 0x4D, 0x50, 0x20, 0x30]) = .running ∧ 0 ≤ (oneLine [0x4A, 0x4D, 0x50, 0x20, 0x30]).pc.toInt ∧
    (oneLine [0x4A, 0x4D, 0x50, 0x20, 0x30]).prog[0]? = some [0x4A, 0x4D, 0x50, 0x20, 0x30] ∧
    decode Params.hardware.firstOperandCheck [0x4A, 0x4D, 0x50, 0x20, 0x30] = .ok (.jmp (.lit 0)) ∧
    resolve (oneLine [0x4A, 0x4D, 0x50, 0x20, 0x30]) (.lit 0) = (oneLine [0x4A, 0x4D, 0x50, 0x20, 0x30]).pc := by decide

theorem witness_PlacedWordRunsNext :
    State.reset.params.firstOperandCheck = .perOpcode ∧ decodeTableWord 24 0x414444 = some (.add .r0 (.reg .r0)) := by decide

/-- `Exec` of `POP R1` and `JMP 3` at `pc = 5`, outside the program, and of the line at `pc`. -/
theorem witness_ExecReportsCurrentPc :
    execReturn [0x50, 0x4F, 0x50, 0x20, 0x52, 0x31] ((oneLine []).setPc 5) =
      .error { error := .stackUnderflow 127, pc := 5 } ∧
    execReturn [0x4A, 0x4D, 0x50, 0x20, 0x33] ((oneLine []).setPc 5) = .ok true ∧
    status (oneLine []) = .running ∧ 0 ≤ (oneLine []).pc.toInt ∧ (oneLine []).prog[(oneLine []).pc.toNat]? = some [] ∧
    execReturn [] (oneLine []) = .error { error := .malformedInstruction [], pc := 0 } ∧
    execReturn [0x4A, 0x4D, 0x50, 0x20, 0x33] (oneLine [0x4A, 0x4D, 0x50, 0x20, 0x33]) = .ok true := by decide

end Sys2Proof.Tests
end

/-! PROOFS. The flags (10_state R26, 41 R151): what one instruction and one step can do to them. -/

namespace Sys2Proof.Machine

/-! ## What the ALU's write does to the flags -/

@[simp] theorem writeResult_flags (s : State) (d : Reg) (r : Word) : (writeResult s d r).flags = s.flags.latch r := rfl

@[simp] theorem writeResult_reg_self (s : State) (d : Reg) (r : Word) : (writeResult s d r).reg d = r :=
  State.setReg_reg_self s d r

theorem Flags.latch_zero_iff (f : Flags) (r : Word) : (f.latch r).zero = true ↔ f.zero = true ∨ r.toInt = 0 := by
  rw [Flags.latch_zero, Bool.or_eq_true, beq_zero_iff]

theorem Flags.latch_negative_iff (f : Flags) (r : Word) :
    (f.latch r).negative = true ↔ f.negative = true ∨ r.toInt < 0 := by
  rw [Flags.latch_negative, Bool.or_eq_true, decide_eq_true_iff]

/-! ## Instructions -/

theorem exec_add (d : Reg) (src : Operand) (s : State) :
    exec (.add d src) s = .next ((writeResult s d (aluAdd (s.reg d) (resolve s src))).setPc (s.pc + 1)) := rfl

theorem exec_sub (d : Reg) (src : Operand) (s : State) :
    exec (.sub d src) s = .next ((writeResult s d (aluSub (s.reg d) (resolve s src))).setPc (s.pc + 1)) := rfl

/-- ADD and SUB end alike: some result is written and latched, and `pc` moves on. -/
theorem exec_add_or_sub {d : Reg} {src : Operand} {s t : State}
    (h : exec (.add d src) s = .next t ∨ exec (.sub d src) s = .next t) :
    ∃ r, t = (writeResult s d r).setPc (s.pc + 1) := by
  rw [exec_add, exec_sub] at h
  obtain h | h := h <;> exact ⟨_, (Host.Outcome.next.inj h).symm⟩

/-- The arbiter's write writes no flag. -/
theorem memWrite_ok_flags {s t : State} {a : Int} {v : Word} {e : ExecError} (h : memWrite s a v e = .ok t) :
    t.flags = s.flags := by
  obtain ⟨k, -, hw⟩ | ⟨-, hw⟩ := memWrite_cases s a v e
  · obtain rfl := Except.ok.inj (hw.symm.trans h)
    exact State.setCell_flags s k v
  · simp [hw] at h

/-- The effect of an instruction other than ADD and SUB writes no flag. -/
theorem effectOf_ok_flags {i : Instr} {s t : State} {jumped : Bool} (ha : i.opcode ≠ .add) (hs : i.opcode ≠ .sub)
    (h : effectOf i s = .ok jumped t) : t.flags = s.flags := by
  cases i with
  | add d src => exact absurd rfl ha
  | sub d src => exact absurd rfl hs
  | store dest src =>
    simp only [effectOf, storeEffect] at h
    split at h <;> cases h
    next hw => exact memWrite_ok_flags hw
  | load d src =>
    simp only [effectOf, loadEffect] at h
    split at h <;> cases h
    rfl
  | push src =>
    simp only [effectOf, pushEffect] at h
    split at h <;> cases h
    next hw => exact (State.setSp_flags _ _).trans (memWrite_ok_flags hw)
  | pop d =>
    simp only [effectOf, popEffect] at h
    split at h <;> cases h
    rfl
  | jmp target =>
    cases h
    rfl

@[simp] theorem raiseError_flags (s : State) (e : ExecError) : (raiseError s e).flags = s.flags := by
  obtain ⟨-, -, -, hf, -⟩ := raiseError_fields s e
  exact hf

@[simp] theorem complete_ok_flags (s t : State) (jumped : Bool) : (complete s (.ok jumped t)).flags = t.flags := by
  cases jumped <;> rfl

/-- The cycle of an instruction other than ADD and SUB leaves the flags alone, whether it completes or raises an error. -/
theorem exec_flags {i : Instr} {s t : State} (ha : i.opcode ≠ .add) (hs : i.opcode ≠ .sub)
    (h : exec i s = .next t) : t.flags = s.flags := by
  obtain ⟨e, -, rfl⟩ | ⟨jumped, u, hu, rfl⟩ := exec_next h
  · exact raiseError_flags s e
  · rw [complete_ok_flags, effectOf_ok_flags ha hs hu]

/-- Everything an instruction can do to the flags: nothing, or latch one result. -/
theorem exec_flags_cases {i : Instr} {s t : State} (h : exec i s = .next t) :
    t.flags = s.flags ∨ ∃ r, t.flags = s.flags.latch r := by
  obtain ⟨e, -, rfl⟩ | ⟨jumped, u, hu, rfl⟩ := exec_next h
  · exact .inl (raiseError_flags s e)
  rw [complete_ok_flags]
  obtain ⟨e, h'⟩ | ⟨d, r, h'⟩ | ⟨d, v, sp, -, h'⟩ | ⟨k, v, sp, -, -, h'⟩ | ⟨g, h'⟩ := effectOf_cases i s <;>
    cases hu.symm.trans h'
  · exact .inr ⟨r, rfl⟩
  all_goals exact .inl rfl

/-! ## Steps -/

/-- Everything a step that answers a next state did, by what it fetched: take the error of the fetch or the decoding, or run
the cycle of the instruction. -/
theorem step_next_cases {s t : State} (h : step s = .next t) :
    (∃ e, fetchDecode s = .error e ∧ t = raiseError s e) ∨ (∃ i, fetchDecode s = .ok i ∧ exec i s = .next t) := by
  obtain ⟨-, rfl⟩ := step_next h
  cases hd : fetchDecode s with
  | error e => exact .inl ⟨e, rfl, by simp [cycleResult, hd]⟩
  | ok i => exact .inr ⟨i, rfl, by simp [cycleResult, hd, exec_eq]⟩

/-- Everything a step can do to the flags: nothing, or latch one result. -/
theorem step_flags_cases {s t : State} (h : step s = .next t) :
    t.flags = s.flags ∨ ∃ r, t.flags = s.flags.latch r := by
  obtain ⟨e, -, rfl⟩ | ⟨i, -, hx⟩ := step_next_cases h
  · exact .inl (raiseError_flags s e)
  · exact exec_flags_cases hx

/-- Settles O41: a step leaves the flags or latches one result, and the latch is an OR that does not write CARRY; only ADD
and SUB reach the latch. -/
theorem flagsAreSticky : Obligations.FlagsAreSticky := by
  unfold Obligations.FlagsAreSticky
  refine ⟨fun s t h => ?_, fun s t d src h => ?_, fun s t i ha hs h => exec_flags ha hs h⟩
  · obtain hf | ⟨r, hf⟩ := step_flags_cases h
    · simp [hf]
    · rw [hf, Flags.latch_zero_iff, Flags.latch_negative_iff]
      exact ⟨.inl, .inl, Flags.latch_carry s.flags r⟩
  · obtain ⟨r, rfl⟩ := exec_add_or_sub h
    rw [State.setPc_flags, State.setPc_reg, writeResult_flags, writeResult_reg_self]
    exact ⟨Flags.latch_zero_iff s.flags r, Flags.latch_negative_iff s.flags r, Flags.latch_carry s.flags r⟩

end Sys2Proof.Machine

/-! PROOFS. The encoding (30_encoding R81, R82, R84, R85, R86): what the tokenizer, the token tables and the literal
reader answer on every line and every token. -/

namespace Sys2Proof

/-! ## Lines as gaps and tokens (R82) -/

/-- A gap of whitespace with the token behind it. -/
def IsPiece (p : Line × Token) : Prop := (∀ c ∈ p.1, isSpace c = true) ∧ IsToken p.2

/-- The line written from pieces and the whitespace after them. -/
def pieceLine (pieces : List (Line × Token)) (trailing : Line) : Line :=
  pieces.flatMap (fun p => p.1 ++ p.2) ++ trailing

/-- A line is made of these pieces: only the first may lack a gap, or two runs of non-whitespace would be one. -/
def MadeOf (line : Line) (pieces : List (Line × Token)) (trailing : Line) : Prop :=
  (∀ p ∈ pieces, IsPiece p) ∧ (∀ p ∈ pieces.tail, p.1 ≠ []) ∧ (∀ c ∈ trailing, isSpace c = true) ∧
    line = pieceLine pieces trailing

@[simp] theorem pieceLine_nil (trailing : Line) : pieceLine [] trailing = trailing := rfl

@[simp] theorem pieceLine_cons (g : Line) (t : Token) (pieces : List (Line × Token)) (trailing : Line) :
    pieceLine ((g, t) :: pieces) trailing = g ++ (t ++ pieceLine pieces trailing) := by
  simp [pieceLine]

/-- Where no piece lacks its gap, a line begins with whitespace, if with anything. -/
theorem pieceLine_head_space {pieces : List (Line × Token)} {trailing : Line} (hp : ∀ p ∈ pieces, IsPiece p)
    (hgap : ∀ p ∈ pieces, p.1 ≠ []) (htr : ∀ c ∈ trailing, isSpace c = true) :
    ∀ c ∈ (pieceLine pieces trailing).head?, isSpace c = true := by
  intro c hc
  cases pieces with
  | nil => exact htr c (List.mem_of_mem_head? hc)
  | cons p rest =>
    obtain ⟨g, t⟩ := p
    have hg : g ≠ [] := hgap (g, t) (by simp)
    rw [pieceLine_cons, List.head?_append_of_ne_nil g hg] at hc
    exact (hp (g, t) (by simp)).1 c (List.mem_of_mem_head? hc)

/-- A token ends where whitespace begins or the line ends. -/
theorem tokens_token_append {t : Token} (ht : IsToken t) {l : Line} (hl : ∀ c ∈ l.head?, isSpace c = true) :
    tokens (t ++ l) = t :: tokens l := by
  cases l with
  | nil => rw [List.append_nil, tokens_last ht]; rfl
  | cons c cs => rw [tokens_token ht (hl c rfl), tokens_space (hl c rfl)]

/-- The tokens of a line are the runs it is made of. -/
theorem tokens_pieceLine {pieces : List (Line × Token)} {trailing : Line} (hp : ∀ p ∈ pieces, IsPiece p)
    (hgap : ∀ p ∈ pieces.tail, p.1 ≠ []) (htr : ∀ c ∈ trailing, isSpace c = true) :
    tokens (pieceLine pieces trailing) = pieces.map Prod.snd := by
  induction pieces with
  | nil => simpa [tokens, splitRun, closeRun] using tokens_gap htr []
  | cons p rest ih =>
    obtain ⟨g, t⟩ := p
    obtain ⟨hg, ht⟩ := hp (g, t) (by simp)
    have hrest : ∀ p ∈ rest, IsPiece p := fun p h => hp p (by simp [h])
    have htail := ih hrest fun p h => hgap p (List.mem_of_mem_tail h)
    rw [pieceLine_cons, tokens_gap hg, tokens_token_append ht (pieceLine_head_space hrest hgap htr), htail]
    rfl

/-- Whitespace before a line joins its first gap, or the whitespace of a line that has no token. -/
theorem MadeOf.space_cons {c : Byte} (hc : isSpace c = true) {line : Line} {pieces : List (Line × Token)}
    {trailing : Line} (h : MadeOf line pieces trailing) : ∃ pieces' trailing', MadeOf (c :: line) pieces' trailing' := by
  obtain ⟨hp, hgap, htr, rfl⟩ := h
  cases pieces with
  | nil => exact ⟨[], c :: trailing, by simp, by simp, List.forall_mem_cons.mpr ⟨hc, htr⟩, rfl⟩
  | cons p rest =>
    obtain ⟨g, t⟩ := p
    obtain ⟨⟨hg, ht⟩, hrest⟩ := List.forall_mem_cons.mp hp
    refine ⟨(c :: g, t) :: rest, trailing, ?_, hgap, htr, by simp⟩
    exact List.forall_mem_cons.mpr ⟨⟨List.forall_mem_cons.mpr ⟨hc, hg⟩, ht⟩, hrest⟩

theorem isToken_cons {c : Byte} (hc : isSpace c = false) {t : Token} (ht : ∀ d ∈ t, isSpace d = false) :
    IsToken (c :: t) :=
  ⟨by simp, List.forall_mem_cons.mpr ⟨hc, ht⟩⟩

/-- Another character before a line joins a first token with no gap before it, or is a token of its own. -/
theorem MadeOf.nonspace_cons {c : Byte} (hc : isSpace c = false) {line : Line} {pieces : List (Line × Token)}
    {trailing : Line} (h : MadeOf line pieces trailing) : ∃ pieces' trailing', MadeOf (c :: line) pieces' trailing' := by
  obtain ⟨hp, hgap, htr, rfl⟩ := h
  have hone : IsPiece ([], [c]) := ⟨by simp, isToken_cons hc (by simp)⟩
  cases pieces with
  | nil => exact ⟨[([], [c])], trailing, by simpa using hone, by simp, htr, by simp⟩
  | cons p rest =>
    obtain ⟨_ | ⟨b, g⟩, t⟩ := p
    · obtain ⟨⟨hg, -, ht⟩, hrest⟩ := List.forall_mem_cons.mp hp
      refine ⟨([], c :: t) :: rest, trailing, ?_, hgap, htr, by simp⟩
      exact List.forall_mem_cons.mpr ⟨⟨hg, isToken_cons hc ht⟩, hrest⟩
    · refine ⟨([], [c]) :: (b :: g, t) :: rest, trailing, List.forall_mem_cons.mpr ⟨hone, hp⟩, ?_, htr, by simp⟩
      exact List.forall_mem_cons.mpr ⟨by simp, hgap⟩

theorem exists_madeOf (line : Line) : ∃ pieces trailing, MadeOf line pieces trailing := by
  induction line with
  | nil => exact ⟨[], [], by simp, by simp, by simp, rfl⟩
  | cons c cs ih =>
    obtain ⟨pieces, trailing, h⟩ := ih
    cases hc : isSpace c with
    | true => exact h.space_cons hc
    | false => exact h.nonspace_cons hc

/-- Settles O6: the runs are read off piece by piece; a line is cut into pieces from its last character on. -/
theorem tokensAreMaximalRuns : Obligations.TokensAreMaximalRuns := by
  unfold Obligations.TokensAreMaximalRuns
  exact ⟨fun _ _ hp hgap htr => tokens_pieceLine hp hgap htr, exists_madeOf⟩

/-! ## The token tables (R81, R84, R85) -/

theorem isSpace_iff_mem (c : Byte) : isSpace c = true ↔ c ∈ [0x09, 0x0A, 0x0B, 0x0C, 0x0D, 0x20] := by
  simp [isSpace, or_assoc]

/-- The opcode map is the inverse of `mnemonic`. -/
theorem opcodeOf_eq_some_iff (t : Token) (op : Opcode) : opcodeOf t = some op ↔ t = op.mnemonic :=
  ⟨mnemonic_of_opcodeOf, fun h => h ▸ opcodeOf_mnemonic op⟩

/-- The register map is the inverse of `name`. -/
theorem regOf_eq_some_iff (t : Token) (r : Reg) : regOf t = some r ↔ t = r.name :=
  ⟨name_of_regOf, fun h => h ▸ regOf_name r⟩

/-- Settles O7: both maps are inverses of the tables `mnemonic` and `name`, which are those of R93 line by line. -/
theorem tokenTablesAreExact : Obligations.TokenTablesAreExact := by
  unfold Obligations.TokenTablesAreExact
  refine ⟨isSpace_iff_mem, fun t op => ?_, fun t r => ?_⟩
  · rw [opcodeOf_eq_some_iff]
    cases op <;> simp [Opcode.mnemonic]
  · rw [regOf_eq_some_iff]
    cases r <;> simp [Reg.name]

/-! ## Literals (R86) -/

/-- The characters of a numeral. -/
def digitString (digits : List (Fin 10)) : List Byte := digits.map fun d => digitByte d.val

/-- The base-10 value of digits behind digits worth `acc`. -/
def digitsValue (digits : List (Fin 10)) (acc : Nat) : Nat := digits.foldl (fun n d => 10 * n + d.val) acc

/-- The optional minus sign. -/
def signString (minus : Bool) : List Byte := if minus then [0x2D] else []

/-- The factor a minus sign stands for. -/
def signValue (minus : Bool) : Int := if minus then -1 else 1

theorem digitByte_of_digitVal {c : Byte} {n : Nat} (h : digitVal c = some n) : n < 10 ∧ c = digitByte n := by
  unfold digitVal at h
  split at h
  · obtain rfl := Option.some.inj h
    refine ⟨by omega, BitVec.eq_of_toNat_eq ?_⟩
    rw [digitByte, BitVec.toNat_ofNat]
    omega
  · cases h

theorem numeralFrom_digitString (digits : List (Fin 10)) (acc : Nat) :
    numeralFrom (digitString digits) acc = some (digitsValue digits acc) := by
  induction digits generalizing acc with
  | nil => rfl
  | cons d ds ih =>
    have hd : digitVal (digitByte d.val) = some d.val := digitVal_digitByte d.isLt
    simpa [digitString, digitsValue, numeralFrom, hd] using ih (10 * acc + d.val)

/-- Only strings of digits are numerals. -/
theorem exists_digitString_of_numeralFrom {cs : List Byte} {acc n : Nat} (h : numeralFrom cs acc = some n) :
    ∃ digits, cs = digitString digits := by
  induction cs generalizing acc with
  | nil => exact ⟨[], rfl⟩
  | cons c cs ih =>
    rw [numeralFrom] at h
    split at h
    · cases h
    · next d hd =>
      obtain ⟨hlt, rfl⟩ := digitByte_of_digitVal hd
      obtain ⟨ds, rfl⟩ := ih h
      exact ⟨⟨d, hlt⟩ :: ds, rfl⟩

/-- A string of the grammar `-?[0-9]+` denotes its base-10 value, negated under the minus sign. -/
theorem literalValue_sign_digits (minus : Bool) {digits : List (Fin 10)} (hne : digits ≠ []) :
    literalValue (signString minus ++ digitString digits) = some (signValue minus * (digitsValue digits 0 : Int)) := by
  obtain ⟨d, ds, rfl⟩ := List.exists_cons_of_ne_nil hne
  have hcons : digitString (d :: ds) = digitByte d.val :: digitString ds := rfl
  have hnum := numeralFrom_digitString (d :: ds) 0
  rw [hcons] at hnum ⊢
  cases minus with
  | true =>
    show literalValue (0x2D :: digitByte d.val :: digitString ds) = some (-1 * (digitsValue (d :: ds) 0 : Int))
    rw [literalValue_minus, hnum]
    simp
  | false => simp [signString, signValue, literalValue_plain (digitByte_ne_minus d.isLt), hnum]

/-- Only a string of the grammar `-?[0-9]+` denotes an integer. -/
theorem exists_sign_digits_of_literalValue {t : Token} {z : Int} (h : literalValue t = some z) :
    ∃ minus digits, digits ≠ [] ∧ t = signString minus ++ digitString digits := by
  cases t with
  | nil => cases h
  | cons c cs =>
    by_cases hc : c = 0x2D
    · subst hc
      cases cs with
      | nil => cases h
      | cons d ds =>
        rw [literalValue_minus, Option.map_eq_some_iff] at h
        obtain ⟨n, hn, -⟩ := h
        obtain ⟨digits, hds⟩ := exists_digitString_of_numeralFrom hn
        refine ⟨true, digits, ?_, by rw [hds]; rfl⟩
        rintro rfl
        cases hds
    · rw [literalValue_plain hc, Option.map_eq_some_iff] at h
      obtain ⟨n, hn, -⟩ := h
      obtain ⟨digits, hds⟩ := exists_digitString_of_numeralFrom hn
      refine ⟨false, digits, ?_, hds⟩
      rintro rfl
      cases hds

/-- R86 (a): the literals of any size and their values. -/
theorem literalValue_eq_some_iff (t : Token) (z : Int) :
    literalValue t = some z ↔ ∃ minus digits, digits ≠ [] ∧ t = signString minus ++ digitString digits ∧
      z = signValue minus * (digitsValue digits 0 : Int) := by
  constructor
  · intro h
    obtain ⟨minus, digits, hne, rfl⟩ := exists_sign_digits_of_literalValue h
    rw [literalValue_sign_digits minus hne] at h
    exact ⟨minus, digits, hne, rfl, (Option.some.inj h).symm⟩
  · rintro ⟨minus, digits, hne, rfl, rfl⟩
    exact literalValue_sign_digits minus hne

/-- R86 (b): the range condition is that the value is a word's. -/
theorem intVal_eq_some_iff (t : Token) (v : Word) : intVal t = some v ↔ literalValue t = some v.toInt := by
  have hlo : intMin ≤ v.toInt := BitVec.le_toInt v
  have hhi : v.toInt ≤ intMax := Int.le_sub_one_of_lt BitVec.toInt_lt
  rw [intVal]
  cases literalValue t with
  | none => simp
  | some z =>
    dsimp only
    split
    · next hz =>
      have hzv : (wrap z).toInt = z := BitVec.toInt_ofInt_eq_self (by omega) hz.1 (Int.lt_of_le_sub_one hz.2)
      rw [Option.some.injEq, Option.some.injEq, ← BitVec.toInt_inj, hzv]
    · next hz =>
      refine ⟨nofun, fun h => ?_⟩
      obtain rfl := Option.some.inj h
      exact absurd ⟨hlo, hhi⟩ hz

theorem intVal_name (r : Reg) : intVal r.name = none := by cases r <;> decide

/-- Settles O8: a literal is the grammar's string (`literalValue_eq_some_iff`) whose value is a word's
(`intVal_eq_some_iff`), and no register name is one. -/
theorem literalGrammar : Obligations.LiteralGrammar := by
  unfold Obligations.LiteralGrammar
  refine ⟨fun t v => (intVal_eq_some_iff t v).trans (literalValue_eq_some_iff t v.toInt), fun t => ?_⟩
  cases hr : regOf t with
  | none => exact .inr rfl
  | some r => exact .inl (name_of_regOf hr ▸ intVal_name r)

end Sys2Proof

/-! PROOFS. The core's operation (40_core_operation): the status and the step, the checks of `Exec` in their order, and the
rules' pseudocode against the machine. -/

namespace Sys2Proof

/-! ## The checks of the decoder (R118 to R121) -/

/-- Check 1 (R118). -/
theorem decode_of_short {check : FirstOperandCheck} {line : Line} (h : (tokens line).length < 2) :
    decode check line = .error (.malformedInstruction line) := by
  rw [decode]
  split
  · rfl
  · rfl
  · next ht => simp [ht] at h

/-- Check 2 (R119). -/
theorem decode_of_unknown {check : FirstOperandCheck} {line : Line} {t0 t1 : Token} {rest : List Token}
    (h : tokens line = t0 :: t1 :: rest) (ho : opcodeOf t0 = none) : decode check line = .error (.unknownOpcode t0) := by
  rw [decode_of_tokens h, ho]

/-- Checks 3 and 4 (R120, R121) and what follows them, for a line whose first token is an opcode. -/
theorem decode_of_opcode {check : FirstOperandCheck} {line : Line} {t0 t1 : Token} {rest : List Token} {op : Opcode}
    (h : tokens line = t0 :: t1 :: rest) (ho : opcodeOf t0 = some op) :
    decode check line =
      if needsRegFirst check op && (regOf t1).isNone then .error (.invalidRegister t1)
      else if (t1 :: rest).length ≠ op.arity then .error (.malformedInstruction line)
      else dispatchTokens line op (t1 :: rest) := by
  rw [decode_of_tokens h, ho]

/-- R120's condition on the setting and the opcode. -/
theorem needsRegFirst_iff (check : FirstOperandCheck) (op : Opcode) :
    needsRegFirst check op = true ↔ check = .all ∨ op ∈ [Opcode.add, .sub, .load, .pop] := by
  cases check <;> cases op <;> decide

theorem needsRegFirst_eq_false_iff (check : FirstOperandCheck) (op : Opcode) :
    needsRegFirst check op = false ↔ check = .perOpcode ∧ op ∈ [Opcode.store, .push, .jmp] := by
  cases check <;> cases op <;> decide

/-- The arity, counted behind the first operand token. -/
theorem arity_eq_succ (op : Opcode) : op.arity = (if op ∈ [Opcode.add, .sub, .store, .load] then 1 else 0) + 1 := by
  cases op <;> rfl

/-- No literal is a register name (R86). -/
theorem regOf_of_intVal {t : Token} {v : Word} (h : intVal t = some v) : regOf t = none := by
  cases hr : regOf t with
  | none => rfl
  | some r =>
    rw [name_of_regOf hr, intVal_name] at h
    cases h

theorem mnemonic_inj {a b : Opcode} : a.mnemonic = b.mnemonic ↔ a = b := by
  refine ⟨fun h => ?_, congrArg _⟩
  have ho := opcodeOf_mnemonic a
  rw [h, opcodeOf_mnemonic] at ho
  exact (Option.some.inj ho).symm

theorem opcodeOf_eq_none_iff (t : Token) : opcodeOf t = none ↔ t ∉ opcodes.map Opcode.mnemonic := by
  simp [opcodeOf]

theorem mem_opcodes (op : Opcode) : op ∈ opcodes := by cases op <;> decide

end Sys2Proof

namespace Sys2Proof.Machine

/-! ## The status and the step (R112, R113) -/

theorem status_eq_faulted {s : State} : status s = .faulted ↔ s.err ≠ none := by
  unfold status
  cases h : s.err with
  | none =>
    simp only [Option.isSome_none, Bool.false_eq_true, if_false]
    split <;> simp
  | some r => simp

theorem status_eq_halted {s : State} : status s = .halted ↔ s.err = none ∧ s.pc.toInt ≥ (s.prog.length : Int) := by
  unfold status
  cases h : s.err with
  | none => simp
  | some r => simp

/-- `Step` is enabled only when the status is RUNNING. -/
theorem exists_step_iff {s : State} : (∃ t, step s = .next t) ↔ status s = .running :=
  ⟨fun ⟨_, h⟩ => (step_next h).1, fun h => ⟨_, step_running h⟩⟩

theorem step_halted {s : State} (h : status s = .halted) : step s = .fault .runEnded := by
  simp [step, h]

/-- Settles O29: one lemma per status, and a step's two inversions. -/
theorem statusDecidesWhetherStepExists : Obligations.StatusDecidesWhetherStepExists := by
  unfold Obligations.StatusDecidesWhetherStepExists
  exact fun s => ⟨status_eq_faulted, status_eq_halted, status_eq_running, exists_step_iff⟩

/-! ## The result of a cycle -/

/-- A negative `pc` is an error before anything is fetched (R116). -/
theorem cycleResult_of_neg {s : State} (h : s.pc.toInt < 0) : cycleResult s = .error (.pcOutOfRange s.pc) := by
  simp [cycleResult, fetchDecode, h]

theorem fetchDecode_of_line {s : State} {line : Line} (h : 0 ≤ s.pc.toInt) (hl : s.prog[s.pc.toNat]? = some line) :
    fetchDecode s = decode s.params.firstOperandCheck line := by
  have hf : fetchLine s s.pc.toNat = line := by simp [fetchLine, hl]
  rw [fetchDecode, if_neg (Int.not_lt.mpr h), hf]

/-- At a `pc` inside the program the cycle is `Exec` of the line there. -/
theorem cycleResult_of_line {s : State} {line : Line} (h : 0 ≤ s.pc.toInt) (hl : s.prog[s.pc.toNat]? = some line) :
    cycleResult s = execLine line s := by
  cases hd : decode s.params.firstOperandCheck line <;>
    simp [cycleResult, fetchDecode_of_line h hl, execLine, hd]

/-- A RUNNING core with `pc >= 0` has a line to fetch. -/
theorem exists_line_of_running {s : State} (hs : status s = .running) (h : 0 ≤ s.pc.toInt) :
    ∃ line, s.prog[s.pc.toNat]? = some line := by
  obtain ⟨-, hlt⟩ := status_eq_running.mp hs
  have hpc : s.pc.toInt = s.pc.toNat := by
    rw [BitVec.toInt_eq_toNat_cond] at h ⊢
    omega
  exact ⟨_, List.getElem?_eq_getElem (by omega)⟩

/-- An effect that does not jump leaves `pc` to the commit. -/
theorem effectOf_ok_false_pc {i : Instr} {s t : State} (h : effectOf i s = .ok false t) : t.pc = s.pc := by
  obtain ⟨e, h'⟩ | ⟨d, r, h'⟩ | ⟨d, v, sp, -, h'⟩ | ⟨k, v, sp, -, -, h'⟩ | ⟨g, h'⟩ := effectOf_cases i s <;>
    cases h.symm.trans h'
  all_goals rfl

theorem cycleResult_ok_false_pc {s t : State} (h : cycleResult s = .ok false t) : t.pc = s.pc := by
  rw [cycleResult] at h
  split at h
  · cases h
  · exact effectOf_ok_false_pc h

/-! ## What `Step` returns, and how an error is taken (R113, R127) -/

theorem stepReturn_of_ok {s t : State} {jumped : Bool} (hs : status s = .running) (h : cycleResult s = .ok jumped t) :
    stepReturn s = .ok := by
  simp [stepReturn, hs, h]

theorem stepReturn_of_error {s : State} {e : ExecError} (hs : status s = .running) (h : cycleResult s = .error e) :
    stepReturn s = .error { error := e, pc := s.pc } := by
  simp [stepReturn, hs, h]

/-- `Step` returns an error only as the record of its cycle's error. -/
theorem stepReturn_eq_error {s : State} {r : ErrorRecord} (h : stepReturn s = .error r) :
    status s = .running ∧ ∃ e, cycleResult s = .error e ∧ r = { error := e, pc := s.pc } := by
  cases hs : status s with
  | halted => simp [stepReturn, hs] at h
  | faulted => simp [stepReturn, hs] at h
  | running =>
    cases hc : cycleResult s with
    | ok jumped t => cases (stepReturn_of_ok hs hc).symm.trans h
    | error e => exact ⟨rfl, e, rfl, (StepReturn.error.inj ((stepReturn_of_error hs hc).symm.trans h)).symm⟩

theorem raiseError_of_halt {s : State} (hp : s.params.errPolicy = .halt) (e : ExecError) :
    raiseError s e = { s with err := some { error := e, pc := s.pc } } := by
  simp [raiseError, hp, State.setErr]

theorem raiseError_of_skip {s : State} (hp : s.params.errPolicy = .skip) (e : ExecError) :
    raiseError s e = { s with pc := s.pc + 1 } := by
  simp [raiseError, hp, State.setPc]

/-- A step whose cycle fails takes the error, and does nothing else. -/
theorem step_of_error {s : State} {e : ExecError} (hs : status s = .running) (h : cycleResult s = .error e) :
    (s.params.errPolicy = .halt → step s = .next { s with err := some { error := e, pc := s.pc } }) ∧
      (s.params.errPolicy = .skip → step s = .next { s with pc := s.pc + 1 }) := by
  rw [step_running hs, h, complete_error]
  exact ⟨fun hp => by rw [raiseError_of_halt hp], fun hp => by rw [raiseError_of_skip hp]⟩

/-- Settles O32: `r` is `cycleResult s`, which `step` completes and `stepReturn` reports. -/
theorem stepFetchesExecutesCommits : Obligations.StepFetchesExecutesCommits := by
  unfold Obligations.StepFetchesExecutesCommits
  refine fun s => ⟨mt exists_step_iff.mp, fun hs => ⟨cycleResult s, cycleResult_of_neg, ?_, ?_, ?_, ?_⟩⟩
  · intro h
    obtain ⟨line, hl⟩ := exists_line_of_running hs h
    exact ⟨line, hl, cycleResult_of_line h hl⟩
  · intro t ht
    exact ⟨by rw [step_running hs, ht, complete_jumped], stepReturn_of_ok hs ht⟩
  · intro t ht
    refine ⟨?_, stepReturn_of_ok hs ht⟩
    rw [step_running hs, ht, complete_next, cycleResult_ok_false_pc ht]
    rfl
  · intro e he
    exact ⟨stepReturn_of_error hs he, step_of_error hs he⟩

/-- Settles O35: the error `Step` returns is its cycle's, and a core with a record latched is FAULTED. -/
theorem errorChangesOnlyLatchOrPc : Obligations.ErrorChangesOnlyLatchOrPc := by
  unfold Obligations.ErrorChangesOnlyLatchOrPc
  intro s r h
  obtain ⟨hs, e, he, rfl⟩ := stepReturn_eq_error h
  obtain ⟨hhalt, hskip⟩ := step_of_error hs he
  have hfaulted : status { s with err := some { error := e, pc := s.pc } } = .faulted :=
    status_eq_faulted.mpr (Option.some_ne_none _)
  refine ⟨rfl, fun hp => ⟨hhalt hp, hfaulted, ?_⟩, hskip⟩
  rw [exists_step_iff, hfaulted]
  decide

/-! ## Jumps (R115, R116, R131) -/

theorem exec_jmp (target : Operand) (s : State) : exec (.jmp target) s = .next (s.setPc (resolve s target)) := rfl

/-- Settles O33: the jump does not test its target; the next cycle does, before it fetches. -/
theorem negativeJumpFaultsOneStepLater : Obligations.NegativeJumpFaultsOneStepLater := by
  unfold Obligations.NegativeJumpFaultsOneStepLater
  intro s target herr hp hneg
  have hrun : status (s.setPc (resolve s target)) = .running :=
    status_eq_running.mpr ⟨herr, hneg.trans_le (Int.natCast_nonneg _)⟩
  have hstep := (step_of_error hrun (cycleResult_of_neg hneg)).1 hp
  exact ⟨_, _, exec_jmp target s, rfl, herr, hrun, hstep, rfl, rfl, status_eq_faulted.mpr (Option.some_ne_none _)⟩

/-- Settles O34: `pc` holds the target itself, which is past the program's end. -/
theorem jumpPastEndHalts : Obligations.JumpPastEndHalts := by
  unfold Obligations.JumpPastEndHalts
  intro s target herr hge
  have hhalted : status (s.setPc (resolve s target)) = .halted := status_eq_halted.mpr ⟨herr, hge⟩
  exact ⟨_, exec_jmp target s, rfl, hhalted, step_halted hhalted⟩

theorem execLine_of_decode {line : Line} {s : State} {i : Instr}
    (h : decode s.params.firstOperandCheck line = .ok i) : execLine line s = effectOf i s := by
  simp [execLine, h]

theorem execLine_of_decode_error {line : Line} {s : State} {e : ExecError}
    (h : decode s.params.firstOperandCheck line = .error e) : execLine line s = .error e := by
  simp [execLine, h]

/-- Settles O39: the cycle is the jump's effect, which sets `pc` to what it is. -/
theorem jumpToItselfLoops : Obligations.JumpToItselfLoops := by
  unfold Obligations.JumpToItselfLoops
  intro s line target hs h hl hd ht
  calc step s = .next (complete s (effectOf (.jmp target) s)) := by
        rw [step_running hs, cycleResult_of_line h hl, execLine_of_decode hd]
    _ = .next (s.setPc (resolve s target)) := rfl
    _ = .next s := by rw [ht]; rfl

/-! ## The state surface (R129, 10_state R28) -/

theorem observe_mem_getElem? (s : State) {a : Nat} (h : a < 128) : (observe s).mem[a]? = some (s.cell a) := by
  simp [observe, memSize, h]

theorem packed_bits (f : Flags) :
    f.packed.getLsbD 0 = f.zero ∧ f.packed.getLsbD 1 = f.negative ∧ f.packed.getLsbD 2 = f.carry := by
  obtain ⟨zero, negative, carry⟩ := f
  cases zero <;> cases negative <;> cases carry <;> decide

/-- Settles O48: field by field; the memory lists the cells in order. -/
theorem observeShowsWholeState : Obligations.ObserveShowsWholeState := by
  unfold Obligations.ObserveShowsWholeState
  refine ⟨fun s => ⟨rfl, ?_, fun a => observe_mem_getElem? s, rfl, rfl, rfl, rfl, rfl⟩, packed_bits⟩
  simp [observe, memSize]

/-! ## The checks of `Exec` and its operands (R118 to R123) -/

/-- Settles O9: `Exec` reports what the decoder's four checks report. -/
theorem validationChecksInOrder : Obligations.ValidationChecksInOrder := by
  unfold Obligations.ValidationChecksInOrder
  intro s line
  refine ⟨fun h => execLine_of_decode_error (decode_of_short h), fun t0 t1 rest ht => ⟨fun ho => ?_, fun op ho => ⟨?_, ?_⟩⟩⟩
  · exact execLine_of_decode_error (decode_of_unknown ht ho)
  · intro hneeds hreg
    have hn := (needsRegFirst_iff _ op).mpr hneeds
    exact execLine_of_decode_error (by simp [decode_of_opcode ht ho, hn, hreg])
  · intro hpass hcount
    have hfirst : (needsRegFirst s.params.firstOperandCheck op && (regOf t1).isNone) = false := by
      obtain hp | hreg := hpass
      · simp [(needsRegFirst_eq_false_iff _ op).mpr hp]
      · simp [Option.ne_none_iff_isSome.mp hreg]
    have harity : (t1 :: rest).length ≠ op.arity := by
      rw [arity_eq_succ, List.length_cons]
      exact fun h => hcount (Nat.succ.inj h)
    exact execLine_of_decode_error (by simp only [decode_of_opcode ht ho, hfirst, if_pos harity]; rfl)

theorem resolveToken_of_reg {s : State} {t : Token} {r : Reg} (h : regOf t = some r) :
    resolveToken s t = .ok (s.reg r) := by
  simp [resolveToken, h]

theorem resolveToken_of_literal {s : State} {t : Token} {v : Word} (h : intVal t = some v) :
    resolveToken s t = .ok v := by
  simp [resolveToken, h, regOf_of_intVal h]

theorem resolveToken_of_neither {s : State} {t : Token} (hr : regOf t = none) (hv : intVal t = none) :
    resolveToken s t = .error (.invalidOperand t) := by
  simp [resolveToken, hr, hv]

/-- Settles O10: no literal is a register name, and the decoder reads a token as `resolve` does. -/
theorem resolveReadsRegisterOrLiteral : Obligations.ResolveReadsRegisterOrLiteral := by
  unfold Obligations.ResolveReadsRegisterOrLiteral
  refine fun s t => ⟨fun r => resolveToken_of_reg, fun v => resolveToken_of_literal, resolveToken_of_neither, ?_⟩
  intro o ho
  rw [resolveToken_eq, ho]
  rfl

/-! ## The rules' pseudocode: its checks (R117) -/

/-- The handler of an opcode in the pseudocode (R122). -/
def pseudoHandler (op : Opcode) (t1 t2 : Token) (s : State) : ExecResult :=
  match op with
  | .add => pseudoArith (· + ·) t1 t2 s
  | .sub => pseudoArith (· - ·) t1 t2 s
  | .store => pseudoStore t1 t2 s
  | .load => pseudoLoad t1 t2 s
  | .push => pseudoPush t1 s
  | .pop => pseudoPop t1 s
  | .jmp => pseudoJmp t1 s

theorem pseudoExec_of_short {line : Line} (s : State) (h : (tokens line).length < 2) :
    pseudoExec line s = .error (.malformedInstruction line) := if_pos h

theorem pseudoExec_of_unknown {line : Line} {t0 t1 : Token} {rest : List Token} (s : State)
    (h : tokens line = t0 :: t1 :: rest) (ho : opcodeOf t0 = none) :
    pseudoExec line s = .error (.unknownOpcode t0) := by
  have hmem := (opcodeOf_eq_none_iff t0).mp ho
  simp only [pseudoExec, h, List.getD_cons_zero]
  rw [if_neg (by simp), if_pos hmem]

/-- The pseudocode on a line whose first token is an opcode: checks 3 and 4, then the opcode's handler. -/
theorem pseudoExec_of_opcode {line : Line} {t1 : Token} {rest : List Token} {op : Opcode} (s : State)
    (h : tokens line = op.mnemonic :: t1 :: rest) :
    pseudoExec line s =
      if needsRegFirst s.params.firstOperandCheck op && (regOf t1).isNone then .error (.invalidRegister t1)
      else if (t1 :: rest).length ≠ op.arity then .error (.malformedInstruction line)
      else pseudoHandler op t1 (rest.getD 0 []) s := by
  have hmem : op.mnemonic ∈ opcodes.map Opcode.mnemonic := List.mem_map_of_mem (mem_opcodes op)
  have hfirst : (s.params.firstOperandCheck = .all ∨ op.mnemonic ∈
      [Opcode.add.mnemonic, Opcode.sub.mnemonic, Opcode.load.mnemonic, Opcode.pop.mnemonic]) ∧ regOf t1 = none ↔
      (needsRegFirst s.params.firstOperandCheck op && (regOf t1).isNone) = true := by
    simp [needsRegFirst_iff, mnemonic_inj]
  have harity : (if op.mnemonic ∈ [Opcode.push.mnemonic, Opcode.pop.mnemonic, Opcode.jmp.mnemonic] then 1 else 2) =
      op.arity := by
    cases op <;> rfl
  simp only [pseudoExec, h, List.getD_cons_zero, List.getD_cons_succ, hfirst, harity]
  rw [if_neg (by simp), if_neg (not_not_intro hmem)]
  refine if_congr Iff.rfl rfl (if_congr Iff.rfl rfl ?_)
  cases op <;> rfl

/-! ## The rules' pseudocode: its handlers against the instructions' effects -/

/-- `Exec` behind the decoder: the error of the decoding, or the effect of the instruction. -/
def runDecoded (s : State) : Except ExecError Instr → ExecResult
  | .error e => .error e
  | .ok i => effectOf i s

theorem execLine_eq_runDecoded (line : Line) (s : State) :
    execLine line s = runDecoded s (decode s.params.firstOperandCheck line) := by
  cases h : decode s.params.firstOperandCheck line with
  | error e => exact execLine_of_decode_error h
  | ok i => exact execLine_of_decode h

theorem pseudoFlags_eq_latch (f : Flags) (r : Word) : pseudoFlags f r = f.latch r := by
  have hz : decide (r.toInt = 0) = (r == 0) := Bool.eq_iff_iff.mpr (decide_eq_true_iff.trans (beq_zero_iff r).symm)
  rw [pseudoFlags, hz]
  rfl

theorem cellOf_eq_ite (a : Int) : cellOf a = if a < 0 ∨ a > 127 then none else some a.toNat := by
  split
  · next h => exact cellOf_eq_none.mpr h
  · next h => exact cellOf_eq_some.mpr (by omega)

theorem memWrite_eq_ite (s : State) (a : Int) (v : Word) (e : ExecError) :
    memWrite s a v e = if a < 0 ∨ a > 127 then .error e else .ok (s.setCell a.toNat v) := by
  rw [memWrite, cellOf_eq_ite]
  split_ifs <;> rfl

theorem memRead_eq_ite (s : State) (a : Int) (e : ExecError) :
    memRead s a e = if a < 0 ∨ a > 127 then .error e else .ok (s.cell a.toNat) := by
  rw [memRead, cellOf_eq_ite]
  split_ifs <;> rfl

/-! ### The instructions' effects with the rules' own range tests -/

theorem storeEffect_eq_ite (dest src : Operand) (s : State) :
    storeEffect dest src s =
      if (resolve s dest).toInt < 0 ∨ (resolve s dest).toInt > 127 then .error (.memoryOutOfBounds (resolve s dest))
      else .ok false (s.setCell (resolve s dest).toInt.toNat (resolve s src)) := by
  rw [storeEffect, memWrite_eq_ite]
  split_ifs <;> rfl

theorem loadEffect_eq_ite (dest : Reg) (src : Operand) (s : State) :
    loadEffect dest src s =
      if (resolve s src).toInt < 0 ∨ (resolve s src).toInt > 127 then .error (.memoryOutOfBounds (resolve s src))
      else .ok false (s.setReg dest (s.cell (resolve s src).toInt.toNat)) := by
  rw [loadEffect, memRead_eq_ite]
  split_ifs <;> rfl

/-- Below the top of the memory PUSH's range test is R186's one-sided one (43_stack R188; log 7). -/
theorem pushEffect_eq_ite (src : Operand) {s : State} (hsp : s.sp ≤ 127) :
    pushEffect src s =
      if s.sp < 0 then .error (.stackOverflow s.sp)
      else .ok false ((s.setCell s.sp.toNat (resolve s src)).setSp (s.sp - 1)) := by
  have htest : s.sp < 0 ∨ s.sp > 127 ↔ s.sp < 0 := by omega
  rw [pushEffect, memWrite_eq_ite, if_congr htest rfl rfl]
  split_ifs <;> rfl

/-- From one below the memory on, POP's range test is R187's one-sided one (43_stack R188; log 7). -/
theorem popEffect_eq_ite (dest : Reg) {s : State} (hsp : -1 ≤ s.sp) :
    popEffect dest s =
      if s.sp + 1 > 127 then .error (.stackUnderflow s.sp)
      else .ok false ((s.setSp (s.sp + 1)).setReg dest (s.cell (s.sp + 1).toNat)) := by
  have htest : s.sp + 1 < 0 ∨ s.sp + 1 > 127 ↔ s.sp + 1 > 127 := by omega
  rw [popEffect, memRead_eq_ite, if_congr htest rfl rfl]
  split_ifs <;> rfl

/-! ### The formats: what each decodes to, beside what `resolve` answers on its tokens -/

/-- A decoded operand token and its resolution: both succeed, or both report the token. -/
theorem operandOf_cases (s : State) (t : Token) :
    (∃ o, operandOf t = .ok o ∧ resolveToken s t = .ok (resolve s o)) ∨
      (∃ e, operandOf t = .error e ∧ resolveToken s t = .error e) := by
  rw [resolveToken_eq]
  cases operandOf t with
  | ok o => exact .inl ⟨o, rfl, rfl⟩
  | error e => exact .inr ⟨e, rfl, rfl⟩

theorem destOf_of_none {t : Token} (h : regOf t = none) : destOf t = .error (.invalidRegister t) := by
  simp [destOf, h]

theorem destOf_of_some {t : Token} {d : Reg} (h : regOf t = some d) : destOf t = .ok d := by
  simp [destOf, h]

/-- Everything decoding a register and an operand can be. -/
theorem decodeRegOperand_cases (s : State) (mk : Reg → Operand → Instr) (a b : Token) :
    (regOf a = none ∧ decodeRegOperand mk a b = .error (.invalidRegister a)) ∨
      (∃ d e, regOf a = some d ∧ resolveToken s b = .error e ∧ decodeRegOperand mk a b = .error e) ∨
      (∃ d o, regOf a = some d ∧ resolveToken s b = .ok (resolve s o) ∧ decodeRegOperand mk a b = .ok (mk d o)) := by
  cases hd : regOf a with
  | none => exact .inl ⟨rfl, by simp [decodeRegOperand, destOf_of_none hd]⟩
  | some d =>
    obtain ⟨o, ho, hr⟩ | ⟨e, ho, hr⟩ := operandOf_cases s b
    · exact .inr (.inr ⟨d, o, rfl, hr, by simp [decodeRegOperand, destOf_of_some hd, ho]⟩)
    · exact .inr (.inl ⟨d, e, rfl, hr, by simp [decodeRegOperand, destOf_of_some hd, ho]⟩)

/-- Everything decoding two operands can be. -/
theorem decodeOperands_cases (s : State) (mk : Operand → Operand → Instr) (a b : Token) :
    (∃ e, resolveToken s a = .error e ∧ decodeOperands mk a b = .error e) ∨
      (∃ o e, resolveToken s a = .ok (resolve s o) ∧ resolveToken s b = .error e ∧
        decodeOperands mk a b = .error e) ∨
      (∃ o p, resolveToken s a = .ok (resolve s o) ∧ resolveToken s b = .ok (resolve s p) ∧
        decodeOperands mk a b = .ok (mk o p)) := by
  obtain ⟨o, ho, hr⟩ | ⟨e, ho, hr⟩ := operandOf_cases s a
  · obtain ⟨p, hp, hq⟩ | ⟨e, hp, hq⟩ := operandOf_cases s b
    · exact .inr (.inr ⟨o, p, hr, hq, by simp [decodeOperands, ho, hp]⟩)
    · exact .inr (.inl ⟨o, e, hr, hq, by simp [decodeOperands, ho, hp]⟩)
  · exact .inl ⟨e, hr, by simp [decodeOperands, ho]⟩

/-- Everything decoding one operand can be. -/
theorem decodeOperand_cases (s : State) (mk : Operand → Instr) (a : Token) :
    (∃ e, resolveToken s a = .error e ∧ decodeOperand mk a = .error e) ∨
      (∃ o, resolveToken s a = .ok (resolve s o) ∧ decodeOperand mk a = .ok (mk o)) := by
  obtain ⟨o, ho, hr⟩ | ⟨e, ho, hr⟩ := operandOf_cases s a
  · exact .inr ⟨o, hr, by simp [decodeOperand, ho]⟩
  · exact .inl ⟨e, hr, by simp [decodeOperand, ho]⟩

/-! ### Each handler against its instruction -/

/-- ADD and SUB: the effect writes the exact result, wrapped. -/
theorem runDecoded_arith {mk : Reg → Operand → Instr} {op : Int → Int → Int} {s : State}
    (hmk : ∀ d o, effectOf (mk d o) s =
      .ok false (writeResult s d (wrap (op (s.reg d).toInt (resolve s o).toInt)))) (a b : Token) :
    runDecoded s (decodeRegOperand mk a b) = pseudoArith op a b s := by
  obtain ⟨hd, h⟩ | ⟨d, e, hd, hb, h⟩ | ⟨d, o, hd, hb, h⟩ := decodeRegOperand_cases s mk a b
  · simp [h, runDecoded, pseudoArith, hd]
  · simp [h, runDecoded, pseudoArith, hd, hb]
  · simp [h, runDecoded, pseudoArith, hd, hb, hmk, writeResult, pseudoFlags_eq_latch]

theorem runDecoded_store (s : State) (a b : Token) :
    runDecoded s (decodeOperands .store a b) = pseudoStore a b s := by
  obtain ⟨e, ha, h⟩ | ⟨o, e, ha, hb, h⟩ | ⟨o, p, ha, hb, h⟩ := decodeOperands_cases s .store a b
  · simp [h, runDecoded, pseudoStore, ha]
  · simp [h, runDecoded, pseudoStore, ha, hb]
  · simp [h, runDecoded, pseudoStore, ha, hb, effectOf, storeEffect_eq_ite]

theorem runDecoded_load (s : State) (a b : Token) :
    runDecoded s (decodeRegOperand .load a b) = pseudoLoad a b s := by
  obtain ⟨hd, h⟩ | ⟨d, e, hd, hb, h⟩ | ⟨d, o, hd, hb, h⟩ := decodeRegOperand_cases s .load a b
  · simp [h, runDecoded, pseudoLoad, hd]
  · simp [h, runDecoded, pseudoLoad, hd, hb]
  · simp [h, runDecoded, pseudoLoad, hd, hb, effectOf, loadEffect_eq_ite]

theorem runDecoded_push {s : State} (hsp : s.sp ≤ 127) (a : Token) :
    runDecoded s (decodeOperand .push a) = pseudoPush a s := by
  obtain ⟨e, ha, h⟩ | ⟨o, ha, h⟩ := decodeOperand_cases s .push a
  · simp [h, runDecoded, pseudoPush, ha]
  · simp [h, runDecoded, pseudoPush, ha, effectOf, pushEffect_eq_ite o hsp]

theorem runDecoded_pop {s : State} (hsp : -1 ≤ s.sp) (a : Token) :
    runDecoded s (decodeReg .pop a) = pseudoPop a s := by
  cases hd : regOf a with
  | none => simp [decodeReg, destOf_of_none hd, runDecoded, pseudoPop, hd]
  | some d => simp [decodeReg, destOf_of_some hd, runDecoded, pseudoPop, hd, effectOf, popEffect_eq_ite d hsp]

theorem runDecoded_jmp (s : State) (a : Token) : runDecoded s (decodeOperand .jmp a) = pseudoJmp a s := by
  obtain ⟨e, ha, h⟩ | ⟨o, ha, h⟩ := decodeOperand_cases s .jmp a
  · simp [h, runDecoded, pseudoJmp, ha]
  · simp [h, runDecoded, pseudoJmp, ha, effectOf, jmpEffect]

/-- With the operand count of its opcode, a line does what the opcode's handler does. -/
theorem runDecoded_dispatchTokens {s : State} (hlow : -1 ≤ s.sp) (hhigh : s.sp ≤ 127) (line : Line) {op : Opcode}
    {t1 : Token} {rest : List Token} (hcount : (t1 :: rest).length = op.arity) :
    runDecoded s (dispatchTokens line op (t1 :: rest)) = pseudoHandler op t1 (rest.getD 0 []) s := by
  have hrest : rest.length = op.arity - 1 := Nat.eq_sub_of_add_eq hcount
  cases op with
  | add =>
    obtain ⟨t2, rfl⟩ := List.length_eq_one_iff.mp hrest
    exact runDecoded_arith (fun _ _ => rfl) t1 t2
  | sub =>
    obtain ⟨t2, rfl⟩ := List.length_eq_one_iff.mp hrest
    exact runDecoded_arith (fun _ _ => rfl) t1 t2
  | store =>
    obtain ⟨t2, rfl⟩ := List.length_eq_one_iff.mp hrest
    exact runDecoded_store s t1 t2
  | load =>
    obtain ⟨t2, rfl⟩ := List.length_eq_one_iff.mp hrest
    exact runDecoded_load s t1 t2
  | push =>
    obtain rfl := List.length_eq_zero_iff.mp hrest
    exact runDecoded_push hhigh t1
  | pop =>
    obtain rfl := List.length_eq_zero_iff.mp hrest
    exact runDecoded_pop hlow t1
  | jmp =>
    obtain rfl := List.length_eq_zero_iff.mp hrest
    exact runDecoded_jmp s t1

/-- Behind checks 1 and 2: checks 3 and 4 are the same on both sides, and so is what follows them. -/
theorem execLine_eq_pseudoExec_of_opcode {s : State} (hlow : -1 ≤ s.sp) (hhigh : s.sp ≤ 127) {line : Line}
    {t0 t1 : Token} {rest : List Token} {op : Opcode} (ht : tokens line = t0 :: t1 :: rest)
    (ho : opcodeOf t0 = some op) : execLine line s = pseudoExec line s := by
  obtain rfl := mnemonic_of_opcodeOf ho
  rw [pseudoExec_of_opcode s ht, execLine_eq_runDecoded, decode_of_opcode ht ho]
  split_ifs with hfirst hcount
  · rfl
  · rfl
  · exact runDecoded_dispatchTokens hlow hhigh line (not_not.mp hcount)

theorem exists_tokens_of_not_short {line : Line} (h : ¬ (tokens line).length < 2) :
    ∃ t0 t1 rest, tokens line = t0 :: t1 :: rest := by
  generalize tokens line = ts at h ⊢
  obtain _ | ⟨t0, _ | ⟨t1, rest⟩⟩ := ts
  · simp at h
  · simp at h
  · exact ⟨t0, t1, rest, rfl⟩

/-- Settles O12: check by check, then handler by handler. -/
theorem execRefinesPseudocode : Obligations.ExecRefinesPseudocode := by
  unfold Obligations.ExecRefinesPseudocode
  intro line s hlow hhigh
  by_cases hshort : (tokens line).length < 2
  · rw [execLine_of_decode_error (decode_of_short hshort), pseudoExec_of_short s hshort]
  · obtain ⟨t0, t1, rest, ht⟩ := exists_tokens_of_not_short hshort
    cases ho : opcodeOf t0 with
    | none => rw [execLine_of_decode_error (decode_of_unknown ht ho), pseudoExec_of_unknown s ht ho]
    | some op => exact execLine_eq_pseudoExec_of_opcode hlow hhigh ht ho

end Sys2Proof.Machine

/-! PROOFS. Arithmetic (41_arithmetic R150 to R153): the ALU's words as integers, and the cycle that ADD and SUB share. -/

namespace Sys2Proof.Machine

/-! ## The ALU in integers (R150) -/

/-- `toInt_wrap` with this hardware's bounds written out. -/
theorem toInt_wrap_numeral (v : Int) : (wrap v).toInt = (v + 2147483648) % 4294967296 - 2147483648 := by
  rw [toInt_wrap]
  norm_num [intMin, xlen, sub_eq_add_neg]

theorem aluAdd_toInt (a b : Word) :
    (aluAdd a b).toInt = (a.toInt + b.toInt + 2147483648) % 4294967296 - 2147483648 :=
  toInt_wrap_numeral (a.toInt + b.toInt)

theorem aluSub_toInt (a b : Word) :
    (aluSub a b).toInt = (a.toInt - b.toInt + 2147483648) % 4294967296 - 2147483648 :=
  toInt_wrap_numeral (a.toInt - b.toInt)

/-- Settles O13: both results are `wrap` of the exact ones, which changes nothing in the range of words. -/
theorem aluWraps : Obligations.AluWraps := by
  unfold Obligations.AluWraps
  exact fun a b => ⟨aluAdd_toInt a b, aluSub_toInt a b, fun hlow hhigh => toInt_wrap_of_range ⟨hlow, hhigh⟩,
    fun hlow hhigh => toInt_wrap_of_range ⟨hlow, hhigh⟩⟩

/-! ## The cycle of ADD and SUB (R151 to R153) -/

theorem writeResult_reg_other (s : State) {d q : Reg} (h : q ≠ d) (r : Word) : (writeResult s d r).reg q = s.reg q :=
  RegFile.get_set_other s.x h r

/-- Committing the result `r` to register `d`, whichever operation made it: the sticky flags of R151, the next line, and the
frame. -/
theorem writeResult_setPc_flags_frame {s t : State} {d : Reg} {r : Word}
    (ht : t = (writeResult s d r).setPc (s.pc + 1)) :
    (t.flags.zero = true ↔ s.flags.zero = true ∨ (t.reg d).toInt = 0) ∧
    (t.flags.negative = true ↔ s.flags.negative = true ∨ (t.reg d).toInt < 0) ∧
    t.flags.carry = s.flags.carry ∧ t.pc = s.pc + 1 ∧ (∀ q, q ≠ d → t.reg q = s.reg q) ∧
    (∀ a, t.cell a = s.cell a) ∧ t.sp = s.sp ∧ t.err = s.err ∧ t.prog = s.prog ∧ t.params = s.params := by
  subst ht
  rw [State.setPc_flags, State.setPc_reg, writeResult_flags, writeResult_reg_self]
  exact ⟨Flags.latch_zero_iff s.flags r, Flags.latch_negative_iff s.flags r, Flags.latch_carry s.flags r, rfl,
    fun _ hq => writeResult_reg_other s hq r, fun _ => rfl, rfl, rfl, rfl, rfl⟩

/-- Settles O14: ADD commits the ALU's sum. -/
theorem addResultFlagsFrame : Obligations.AddResultFlagsFrame := by
  unfold Obligations.AddResultFlagsFrame
  intro s d src
  refine ⟨_, exec_add d src s, ?_, writeResult_setPc_flags_frame rfl⟩
  rw [State.setPc_reg, writeResult_reg_self, aluAdd_toInt]

/-- Settles O15: SUB commits the ALU's difference, the destination minus the source. -/
theorem subResultFlagsFrame : Obligations.SubResultFlagsFrame := by
  unfold Obligations.SubResultFlagsFrame
  intro s d src
  refine ⟨_, exec_sub d src s, ?_, writeResult_setPc_flags_frame rfl⟩
  rw [State.setPc_reg, writeResult_reg_self, aluSub_toInt]

end Sys2Proof.Machine

/-! PROOFS. STORE and LOAD (42_load_store R171, R172, R174): their cycles at a valid address, and the one cell an instruction
can write (20_memory R53). -/

namespace Sys2Proof.Machine

/-! ## The cycles of STORE and LOAD at a valid address (R171, R172) -/

theorem exec_store {s : State} {dest : Operand} (src : Operand) (hlow : 0 ≤ (resolve s dest).toInt)
    (hhigh : (resolve s dest).toInt ≤ 127) :
    exec (.store dest src) s =
      .next ((s.setCell (resolve s dest).toInt.toNat (resolve s src)).setPc (s.pc + 1)) := by
  have heffect : effectOf (.store dest src) s = .ok false (s.setCell (resolve s dest).toInt.toNat (resolve s src)) :=
    (storeEffect_eq_ite dest src s).trans (if_neg (by omega))
  rw [exec_eq, heffect, complete_next, State.setCell_pc]

theorem exec_load {s : State} (d : Reg) {src : Operand} (hlow : 0 ≤ (resolve s src).toInt)
    (hhigh : (resolve s src).toInt ≤ 127) :
    exec (.load d src) s = .next ((s.setReg d (s.cell (resolve s src).toInt.toNat)).setPc (s.pc + 1)) := by
  have heffect : effectOf (.load d src) s = .ok false (s.setReg d (s.cell (resolve s src).toInt.toNat)) :=
    (loadEffect_eq_ite d src s).trans (if_neg (by omega))
  rw [exec_eq, heffect, complete_next, State.setReg_pc]

/-- Settles O16: the cycle is one write of a canonical memory and the move to the next line. -/
theorem storeWritesOneCell : Obligations.StoreWritesOneCell := by
  unfold Obligations.StoreWritesOneCell
  intro s dest src hm hlow hhigh
  refine ⟨_, exec_store src hlow hhigh, fun a ha => ?_, fun a ha => ?_, rfl, fun _ => rfl, rfl, rfl, rfl, rfl, rfl⟩
  · rw [State.setPc_cell, State.cell_setCell hm, if_pos (by omega)]
  · rw [State.setPc_cell, State.cell_setCell hm, if_neg (by omega)]

/-- Settles O17: the cycle is one register write of the cell read and the move to the next line. -/
theorem loadReadsOneCell : Obligations.LoadReadsOneCell := by
  unfold Obligations.LoadReadsOneCell
  intro s d src hlow hhigh
  refine ⟨_, exec_load d hlow hhigh, fun a ha => ?_, rfl, fun q hq => ?_, fun _ => rfl, rfl, rfl, rfl, rfl, rfl⟩
  · rw [State.setPc_reg, State.setReg_reg_self, ← ha, Int.toNat_natCast]
  · rw [State.setPc_reg, State.setReg_reg, if_neg hq]

/-! ## The one cell an instruction can write (20_memory R53) -/

theorem memWrite_ok_eq_setCell {s t : State} {a : Int} {v : Word} {e : ExecError} (h : memWrite s a v e = .ok t) :
    ∃ k < memSize, (k : Int) = a ∧ t = s.setCell k v := by
  obtain ⟨k, hk, hw⟩ | ⟨-, hw⟩ := memWrite_cases s a v e
  · obtain ⟨-, hhigh, hka⟩ := cellOf_eq_some.mp hk
    exact ⟨k, by unfold memSize; omega, hka, (Except.ok.inj (hw.symm.trans h)).symm⟩
  · simp [hw] at h

/-- Everything an instruction's effect can do to the memory: nothing, or write the one cell it does not leave alone. -/
theorem effectOf_ok_mem_cases {i : Instr} {s t : State} {jumped : Bool} (h : effectOf i s = .ok jumped t) :
    t.mem = s.mem ∨ ∃ k < memSize, ∃ v, ¬ leavesCell k s i ∧ t.mem = s.mem.write k v := by
  cases i with
  | add d src | sub d src | jmp target =>
    cases h
    exact .inl rfl
  | load d src | pop d =>
    simp only [effectOf, loadEffect, popEffect] at h
    split at h <;> cases h
    exact .inl rfl
  | store dest src | push src =>
    simp only [effectOf, storeEffect, pushEffect] at h
    split at h <;> cases h
    next hw =>
      obtain ⟨k, hk, hka, rfl⟩ := memWrite_ok_eq_setCell hw
      exact .inr ⟨k, hk, _, not_not_intro hka.symm, rfl⟩

/-- The same of the whole cycle; taking an error changes no cell (40 R125). -/
theorem exec_mem_cases {i : Instr} {s t : State} (h : exec i s = .next t) :
    t.mem = s.mem ∨ ∃ k < memSize, ∃ v, ¬ leavesCell k s i ∧ t.mem = s.mem.write k v := by
  obtain ⟨e, -, rfl⟩ | ⟨jumped, u, hu, rfl⟩ := exec_next h
  · obtain ⟨-, hmem, -⟩ := raiseError_fields s e
    exact .inl hmem
  · obtain ⟨-, hmem, -⟩ := complete_ok_fields s u jumped
    rw [hmem]
    exact effectOf_ok_mem_cases hu

theorem exec_mem_wf {i : Instr} {s t : State} (hm : s.mem.wf = true) (h : exec i s = .next t) : t.mem.wf = true := by
  obtain hmem | ⟨k, hk, v, -, hmem⟩ := exec_mem_cases h <;> rw [hmem]
  · exact hm
  · exact Memory.wf_write hk hm

theorem exec_cell_of_leavesCell {i : Instr} {s t : State} {a : Nat} (hm : s.mem.wf = true) (h : exec i s = .next t)
    (ha : leavesCell a s i) : t.cell a = s.cell a := by
  obtain hmem | ⟨k, -, v, hk, hmem⟩ := exec_mem_cases h <;> rw [State.cell, hmem]
  · rfl
  · have hne : a ≠ k := by
      rintro rfl
      exact hk ha
    rw [Memory.read_write hm, if_neg hne]
    rfl

/-! ## Sequences of instructions (R174) -/

theorem afterExec_of_exec {i : Instr} {s t : State} (h : exec i s = .next t) : afterExec s i = t := by
  rw [afterExec, h]

theorem exec_eq_afterExec (i : Instr) (s : State) : exec i s = .next (afterExec s i) := by
  rw [afterExec_of_exec (exec_eq i s), exec_eq]

/-- Instructions that each leave cell `a` alone, in the state it runs in, leave it alone together. -/
theorem afterAll_cell_of_leavesCellAll {s : State} {is : List Instr} {a : Nat} (hm : s.mem.wf = true)
    (h : leavesCellAll a s is) : (afterAll s is).cell a = s.cell a := by
  induction is generalizing s with
  | nil => rfl
  | cons i rest ih =>
    obtain ⟨hfirst, hrest⟩ := h
    have hexec := exec_eq_afterExec i s
    calc (afterAll s (i :: rest)).cell a
        = (afterAll (afterExec s i) rest).cell a := rfl
      _ = (afterExec s i).cell a := ih (exec_mem_wf hm hexec) hrest
      _ = s.cell a := exec_cell_of_leavesCell hm hexec hfirst

/-- Settles O27: STORE leaves `v` in the cell, the instructions between keep it, and LOAD reads it. -/
theorem loadReturnsLastStore : Obligations.LoadReturnsLastStore := by
  unfold Obligations.LoadReturnsLastStore
  rintro s dest src addr d between s1 s2 hm hlow hhigh hs1 hleaves rfl haddr
  obtain ⟨t1, hstore, hwritten, -⟩ := storeWritesOneCell s dest src hm hlow hhigh
  obtain rfl := hs1.trans (afterExec_of_exec hstore)
  obtain ⟨t, hload, hread, -⟩ :=
    loadReadsOneCell (afterAll s1 between) d addr (haddr ▸ hlow) (haddr ▸ hhigh)
  obtain ⟨a, ha⟩ := Int.eq_ofNat_of_zero_le hlow
  rw [ha] at hleaves
  refine ⟨t, hload, ?_⟩
  calc t.reg d
      = (afterAll s1 between).cell a := hread a (by rw [haddr, ha])
    _ = s1.cell a := afterAll_cell_of_leavesCellAll (exec_mem_wf hm hstore) hleaves
    _ = resolve s src := hwritten a ha.symm

end Sys2Proof.Machine

/-! PROOFS. The stack (43_stack R185 to R189): the cycles of PUSH and POP, what an instruction does to `sp`, and the invariant
of Safety.lean, which holds the range of `sp` (R188). -/

namespace Sys2Proof.Machine

/-! ## The cycles of PUSH and POP (R186, R187) -/

theorem exec_push {s : State} (src : Operand) (hlow : 0 ≤ s.sp) (hhigh : s.sp ≤ 127) :
    exec (.push src) s =
      .next (((s.setCell s.sp.toNat (resolve s src)).setSp (s.sp - 1)).setPc (s.pc + 1)) := by
  have heffect : effectOf (.push src) s = .ok false ((s.setCell s.sp.toNat (resolve s src)).setSp (s.sp - 1)) :=
    (pushEffect_eq_ite src hhigh).trans (if_neg (Int.not_lt.mpr hlow))
  rw [exec_eq, heffect, complete_next, State.setSp_pc, State.setCell_pc]

theorem exec_push_full {s : State} (src : Operand) (hfull : s.sp < 0) :
    exec (.push src) s = .next (raiseError s (.stackOverflow s.sp)) := by
  have heffect : effectOf (.push src) s = .error (.stackOverflow s.sp) :=
    (pushEffect_eq_ite src (by omega)).trans (if_pos hfull)
  rw [exec_eq, heffect, complete_error]

theorem exec_pop {s : State} (d : Reg) (hlow : -1 ≤ s.sp) (hhigh : s.sp ≤ 126) :
    exec (.pop d) s =
      .next (((s.setSp (s.sp + 1)).setReg d (s.cell (s.sp + 1).toNat)).setPc (s.pc + 1)) := by
  have heffect : effectOf (.pop d) s = .ok false ((s.setSp (s.sp + 1)).setReg d (s.cell (s.sp + 1).toNat)) :=
    (popEffect_eq_ite d hlow).trans (if_neg (by omega))
  rw [exec_eq, heffect, complete_next, State.setReg_pc, State.setSp_pc]

/-- Settles O18: the cycle is one write of a canonical memory at `sp`, the decrement, and the move to the next line. -/
theorem pushStoresThenDecrements : Obligations.PushStoresThenDecrements := by
  unfold Obligations.PushStoresThenDecrements
  intro s src hm hlow hhigh
  refine ⟨_, exec_push src hlow hhigh, rfl, fun a ha => ?_, fun a ha => ?_, rfl, fun _ => rfl, rfl, rfl, rfl, rfl⟩
  · rw [State.setPc_cell, State.setSp_cell, State.cell_setCell hm, if_pos (by omega)]
  · rw [State.setPc_cell, State.setSp_cell, State.cell_setCell hm, if_neg (by omega)]

/-- Settles O19: the cycle is the increment, one register write of the cell at the new `sp`, and the move to the next line. -/
theorem popIncrementsThenLoads : Obligations.PopIncrementsThenLoads := by
  unfold Obligations.PopIncrementsThenLoads
  intro s d hlow hhigh
  refine ⟨_, exec_pop d hlow hhigh, rfl, fun a ha => ?_, rfl, fun q hq => ?_, fun _ => rfl, rfl, rfl, rfl, rfl⟩
  · have hsp : (a : Int) = s.sp + 1 := ha
    rw [State.setPc_reg, State.setReg_reg_self, ← hsp, Int.toNat_natCast]
  · rw [State.setPc_reg, State.setReg_reg, if_neg hq, State.setSp_reg]

/-- Settles O26: POP reads the one cell PUSH wrote, which holds the value of the register POP loads. -/
theorem pushThenPopRestores : Obligations.PushThenPopRestores := by
  unfold Obligations.PushThenPopRestores
  intro s r hm hlow hhigh
  obtain ⟨t, hpush, hdec, hpushed, hothers, -, hregs, -⟩ := pushStoresThenDecrements s (.reg r) hm hlow hhigh
  obtain ⟨u, hpop, hinc, hload, -, hregs', hcells, -⟩ := popIncrementsThenLoads t r (by omega) (by omega)
  have hsp : u.sp = s.sp := by omega
  refine ⟨t, u, hpush, hpop, hsp, fun q => ?_, fun a => ?_⟩
  · by_cases hq : q = r
    · obtain ⟨a, ha⟩ := Int.eq_ofNat_of_zero_le hlow
      calc u.reg q = u.reg r := by rw [hq]
        _ = t.cell a := hload a (by rw [hsp, ha])
        _ = s.reg r := hpushed a ha.symm
        _ = s.reg q := by rw [hq]
    · rw [hregs' q hq, hregs q]
  · rw [hcells a]
    split
    · next ha => exact hpushed a ha
    · next ha => exact hothers a ha

/-! ## The depth of the stack (R185, R186) -/

/-- PUSHes that have room complete, and each takes one cell. -/
theorem afterAll_replicate_push (v : Operand) {s : State} {n : Nat} (hhigh : s.sp ≤ 127) (hroom : (n : Int) ≤ s.sp + 1) :
    (afterAll s (List.replicate n (.push v))).sp = s.sp - n ∧
      (afterAll s (List.replicate n (.push v))).err = s.err ∧
      (afterAll s (List.replicate n (.push v))).params = s.params := by
  induction n generalizing s with
  | zero => exact ⟨(Int.sub_zero s.sp).symm, rfl, rfl⟩
  | succ n ih =>
    obtain ⟨t, hpush, hsp, herr, hparams⟩ : ∃ t, exec (.push v) s = .next t ∧ t.sp = s.sp - 1 ∧ t.err = s.err ∧
        t.params = s.params := ⟨_, exec_push v (by omega) hhigh, rfl, rfl, rfl⟩
    have hsplit : afterAll s (List.replicate (n + 1) (.push v)) = afterAll t (List.replicate n (.push v)) :=
      congrArg (afterAll · (List.replicate n (.push v))) (afterExec_of_exec hpush)
    obtain ⟨hsp', herr', hparams'⟩ := ih (s := t) (by omega) (by omega)
    rw [hsplit]
    exact ⟨by omega, herr'.trans herr, hparams'.trans hparams⟩

/-- Settles O28: 128 PUSHes have room from `sp = 127`, and leave `sp` at -1, where the next one takes its error. -/
theorem stackHolds128Words : Obligations.StackHolds128Words := by
  unfold Obligations.StackHolds128Words
  rintro s v n t hsp herr hp hn rfl
  obtain ⟨hsp', herr', hparams⟩ := afterAll_replicate_push v (s := s) (n := n) (by omega) (by omega)
  refine ⟨by unfold stackDepth spInit; omega, herr'.trans herr, fun hfull => ?_⟩
  have hlast : (afterAll s (List.replicate n (.push v))).sp = -1 := by omega
  have hexec := exec_push_full v (s := afterAll s (List.replicate n (.push v))) (by omega)
  rw [raiseError_of_halt (hparams ▸ hp), hlast] at hexec
  exact ⟨_, _, hexec, rfl, rfl, rfl⟩

/-! ## What an instruction does to `sp` (10_state R25, R188) -/

/-- How far an instruction that completes moves `sp`. -/
def spMove : Instr → Int
  | .push _ => -1
  | .pop _ => 1
  | .add _ _ | .sub _ _ | .store _ _ | .load _ _ | .jmp _ => 0

theorem memWrite_ok_sp {s t : State} {a : Int} {v : Word} {e : ExecError} (h : memWrite s a v e = .ok t) :
    t.sp = s.sp := by
  obtain ⟨k, -, -, rfl⟩ := memWrite_ok_eq_setCell h
  exact State.setCell_sp s k v

theorem effectOf_ok_sp {i : Instr} {s t : State} {jumped : Bool} (h : effectOf i s = .ok jumped t) :
    t.sp = s.sp + spMove i := by
  cases i with
  | add d src | sub d src | jmp target =>
    cases h
    exact (Int.add_zero s.sp).symm
  | store dest src =>
    simp only [effectOf, storeEffect] at h
    split at h <;> cases h
    next hw => exact (memWrite_ok_sp hw).trans (Int.add_zero s.sp).symm
  | load d src =>
    simp only [effectOf, loadEffect] at h
    split at h <;> cases h
    exact (Int.add_zero s.sp).symm
  | push src =>
    simp only [effectOf, pushEffect] at h
    split at h <;> cases h
    rfl
  | pop d =>
    simp only [effectOf, popEffect] at h
    split at h <;> cases h
    rfl

/-- The whole cycle: an instruction that takes an error leaves `sp`. -/
theorem exec_sp_cases {i : Instr} {s t : State} (h : exec i s = .next t) : t.sp = s.sp ∨ t.sp = s.sp + spMove i := by
  obtain ⟨e, -, rfl⟩ | ⟨jumped, u, hu, rfl⟩ := exec_next h
  · obtain ⟨-, -, hsp, -⟩ := raiseError_fields s e
    exact .inl hsp
  · obtain ⟨-, -, hsp, -⟩ := complete_ok_fields s u jumped
    exact .inr (hsp.trans (effectOf_ok_sp hu))

/-- Settles O42: `sp` moves by `spMove`, which is 0 but for PUSH and POP, or not at all. -/
theorem onlyStackInstructionsMoveSp : Obligations.OnlyStackInstructionsMoveSp := by
  unfold Obligations.OnlyStackInstructionsMoveSp
  intro s t i h
  have hsp := exec_sp_cases h
  cases i with
  | push src => exact ⟨fun hne => absurd rfl hne, fun _ => hsp, nofun⟩
  | pop d => exact ⟨fun _ hne => absurd rfl hne, nofun, fun _ => hsp⟩
  | add d src | sub d src | store dest src | load d src | jmp target =>
    exact ⟨fun _ _ => hsp.elim id fun h0 => h0.trans (Int.add_zero s.sp), nofun, nofun⟩

/-- No effect takes `sp` out of its range (R188). -/
theorem effectOf_ok_sp_range {i : Instr} {s t : State} {jumped : Bool} (hlow : -1 ≤ s.sp) (hhigh : s.sp ≤ 127)
    (h : effectOf i s = .ok jumped t) : -1 ≤ t.sp ∧ t.sp ≤ 127 := by
  obtain ⟨e, h'⟩ | ⟨d, r, h'⟩ | ⟨d, v, sp, hsp, h'⟩ | ⟨k, v, sp, -, hsp, h'⟩ | ⟨g, h'⟩ := effectOf_cases i s <;>
    cases h.symm.trans h'
  · exact ⟨hlow, hhigh⟩
  · rw [State.setReg_sp, State.setSp_sp]
    omega
  · rw [State.setSp_sp]
    omega
  · exact ⟨hlow, hhigh⟩

/-! ## The invariant (10_state section 8) -/

theorem exec_carry {i : Instr} {s t : State} (h : exec i s = .next t) : t.flags.carry = s.flags.carry := by
  obtain hf | ⟨r, hf⟩ := exec_flags_cases h <;> rw [hf]
  exact Flags.latch_carry s.flags r

/-- Taking an error keeps the invariant: the record names the line at `pc`, and under skip the latch stays empty. -/
theorem raiseError_inv {s : State} (hi : s.Inv) (herr : s.err = none) (e : ExecError) : (raiseError s e).Inv := by
  obtain ⟨hp, h⟩ | ⟨-, h⟩ := raiseError_cases s e <;> rw [h]
  · exact { hi with
      err_at_pc := fun r hr => by rw [← Option.some.inj hr]; rfl
      err_latched := fun hskip => by cases hp.symm.trans hskip }
  · exact { hi with
      err_at_pc := fun r hr => by cases herr.symm.trans hr }

/-- The cycle of an instruction keeps the invariant: each field has its own law. -/
theorem exec_inv {i : Instr} {s t : State} (hi : s.Inv) (herr : s.err = none) (h : exec i s = .next t) : t.Inv := by
  have hmem := exec_mem_wf hi.mem_wf h
  have hcarry := (exec_carry h).trans hi.carry_clear
  obtain ⟨e, -, rfl⟩ | ⟨jumped, u, hu, rfl⟩ := exec_next h
  · exact raiseError_inv hi herr e
  obtain ⟨-, -, hsp, -, herr', hprog, hparams⟩ := complete_ok_fields s u jumped
  obtain ⟨herr'', hprog', hparams'⟩ := effectOf_ok_fixed hu
  obtain ⟨hlow, hhigh⟩ := effectOf_ok_sp_range hi.sp_low hi.sp_high hu
  have hnone := herr'.trans (herr''.trans herr)
  exact {
    sp_low := hsp ▸ hlow
    sp_high := hsp ▸ hhigh
    carry_clear := hcarry
    mem_wf := hmem
    prog_wf := by rw [hprog, hparams, hprog', hparams']; exact hi.prog_wf
    err_at_pc := fun r hr => by cases hnone.symm.trans hr
    err_latched := fun _ => hnone }

/-- Settles O40: a step takes an error or runs an instruction's cycle, from an empty latch. -/
theorem stepKeepsInvariant : Obligations.StepKeepsInvariant := by
  unfold Obligations.StepKeepsInvariant
  intro s t hi h
  obtain ⟨herr, -⟩ := status_eq_running.mp (step_next h).1
  obtain ⟨e, -, rfl⟩ | ⟨i, -, hexec⟩ := step_next_cases h
  · exact raiseError_inv hi herr e
  · exact exec_inv hi herr hexec

end Sys2Proof.Machine

/-! PROOFS. Control (44_control R200, R203): which instruction jumps, and where `pc` stands after each. -/

namespace Sys2Proof.Machine

/-- JMP is the one instruction that sets `pc` itself. -/
theorem effectOf_ok_jumped_iff {i : Instr} {s t : State} {jumped : Bool} (h : effectOf i s = .ok jumped t) :
    jumped = true ↔ i.opcode = .jmp := by
  cases i with
  | jmp target =>
    cases h
    exact ⟨fun _ => rfl, fun _ => rfl⟩
  | add d src | sub d src =>
    cases h
    exact ⟨nofun, nofun⟩
  | store _ _ | load _ _ | push _ | pop _ =>
    simp only [effectOf, storeEffect, loadEffect, pushEffect, popEffect] at h
    split at h <;> cases h
    exact ⟨nofun, nofun⟩

/-- The cycle of an effect that does not jump ends at the next line. -/
theorem exec_of_not_jumped {i : Instr} {s t : State} (h : effectOf i s = .ok false t) :
    exec i s = .next (t.setPc (s.pc + 1)) := by
  rw [exec_eq, h, complete_next, effectOf_ok_false_pc h]

/-- Settles O37: the effect of any other instruction does not jump, so the commit adds 1 to its `pc`. -/
theorem otherInstructionsFallThrough : Obligations.OtherInstructionsFallThrough := by
  unfold Obligations.OtherInstructionsFallThrough
  intro s i jumped u h
  have hjump := effectOf_ok_jumped_iff h
  refine ⟨hjump, fun hne => ?_⟩
  obtain rfl : jumped = false := Bool.eq_false_iff.mpr (mt hjump.mp hne)
  obtain ⟨herr, -⟩ := effectOf_ok_fixed h
  exact ⟨_, exec_of_not_jumped h, rfl, herr⟩

/-- Settles O20: the cycle of JMP is one write of `pc`. -/
theorem jmpSetsPcToTarget : Obligations.JmpSetsPcToTarget := by
  unfold Obligations.JmpSetsPcToTarget
  exact fun s target => ⟨_, exec_jmp target s, rfl, fun _ => rfl, fun _ => rfl, rfl, rfl, rfl, rfl, rfl⟩

end Sys2Proof.Machine

/-! PROOFS. The errors (60_exceptions R214 to R217): the operand that is reported where one is invalid, and what a cycle does
whose instruction's own test fails. -/

namespace Sys2Proof

/-! ## Decoding past the checks (R120 to R122) -/

/-- Past checks 3 and 4 only the operand tokens are left to decode. -/
theorem decode_eq_dispatchTokens {check : FirstOperandCheck} {line : Line} {op : Opcode} {t1 : Token} {rest : List Token}
    (ht : tokens line = op.mnemonic :: t1 :: rest)
    (hfirst : (check = .perOpcode ∧ op ∈ [Opcode.store, .push, .jmp]) ∨ regOf t1 ≠ none)
    (hcount : (t1 :: rest).length = op.arity) : decode check line = dispatchTokens line op (t1 :: rest) := by
  have hpass : ¬ (needsRegFirst check op && (regOf t1).isNone) = true := by
    obtain hp | hreg := hfirst
    · simp [(needsRegFirst_eq_false_iff check op).mpr hp]
    · simp [hreg]
  rw [decode_of_opcode ht (opcodeOf_mnemonic op), if_neg hpass, if_neg (not_not_intro hcount)]

/-! ## The operand that is reported (R123, R124) -/

theorem operandOf_of_neither {t : Token} (hr : regOf t = none) (hv : intVal t = none) :
    operandOf t = .error (.invalidOperand t) := by
  simp [operandOf, hr, hv]

theorem exists_operandOf_eq_ok {t : Token} (h : regOf t ≠ none ∨ intVal t ≠ none) : ∃ o, operandOf t = .ok o := by
  cases hr : regOf t with
  | some r => exact ⟨.reg r, by simp [operandOf, hr]⟩
  | none =>
    obtain ⟨v, hv⟩ := Option.ne_none_iff_exists'.mp (h.resolve_left (not_not_intro hr))
    exact ⟨.lit v, by simp [operandOf, hr, hv]⟩

section
variable {a b : Token} {e : ExecError}

theorem decodeRegOperand_of_second_error {mk : Reg → Operand → Instr} (ha : regOf a ≠ none)
    (hb : operandOf b = .error e) : decodeRegOperand mk a b = .error e := by
  obtain ⟨d, hd⟩ := Option.ne_none_iff_exists'.mp ha
  simp [decodeRegOperand, destOf, hd, hb]

theorem decodeOperands_of_first_error {mk : Operand → Operand → Instr} (ha : operandOf a = .error e) :
    decodeOperands mk a b = .error e := by
  simp [decodeOperands, ha]

theorem decodeOperands_of_second_error {mk : Operand → Operand → Instr} {o : Operand} (ha : operandOf a = .ok o)
    (hb : operandOf b = .error e) : decodeOperands mk a b = .error e := by
  simp [decodeOperands, ha, hb]

theorem decodeOperand_of_error {mk : Operand → Instr} (ha : operandOf a = .error e) :
    decodeOperand mk a = .error e := by
  simp [decodeOperand, ha]

end

/-! ### The same of a line, by its opcode -/

section
variable {check : FirstOperandCheck} {line : Line} {a b : Token}

theorem decode_of_second_error_of_regOperand {op : Opcode} {e : ExecError} (hop : op ∈ [Opcode.add, .sub, .load])
    (ht : tokens line = [op.mnemonic, a, b]) (ha : regOf a ≠ none) (hb : operandOf b = .error e) :
    decode check line = .error e := by
  simp only [List.mem_cons, List.not_mem_nil, or_false] at hop
  obtain rfl | rfl | rfl := hop <;>
    exact (decode_eq_dispatchTokens ht (.inr ha) rfl).trans (decodeRegOperand_of_second_error ha hb)

theorem decode_of_first_error_of_store {e : ExecError} (ht : tokens line = [Opcode.store.mnemonic, a, b])
    (ha : operandOf a = .error e) : decode .perOpcode line = .error e :=
  (decode_eq_dispatchTokens ht (.inl ⟨rfl, by decide⟩) rfl).trans (decodeOperands_of_first_error ha)

/-- STORE's first operand is past check 3 and resolved: a register, or under `perOpcode` a literal. -/
theorem decode_of_second_error_of_store {e : ExecError} (ht : tokens line = [Opcode.store.mnemonic, a, b])
    (ha : regOf a ≠ none ∨ (check = .perOpcode ∧ intVal a ≠ none)) (hb : operandOf b = .error e) :
    decode check line = .error e := by
  obtain ⟨o, ho⟩ := exists_operandOf_eq_ok (ha.imp_right And.right)
  have hfirst : (check = .perOpcode ∧ Opcode.store ∈ [Opcode.store, .push, .jmp]) ∨ regOf a ≠ none :=
    ha.symm.imp_left fun ⟨hp, _⟩ => ⟨hp, by decide⟩
  exact (decode_eq_dispatchTokens ht hfirst rfl).trans (decodeOperands_of_second_error ho hb)

theorem decode_of_error_of_operand {op : Opcode} {e : ExecError} (hop : op ∈ [Opcode.push, .jmp])
    (ht : tokens line = [op.mnemonic, a]) (ha : operandOf a = .error e) : decode .perOpcode line = .error e := by
  have hfirst : op ∈ [Opcode.store, .push, .jmp] := List.mem_cons_of_mem _ hop
  simp only [List.mem_cons, List.not_mem_nil, or_false] at hop
  obtain rfl | rfl := hop <;>
    exact (decode_eq_dispatchTokens ht (.inl ⟨rfl, hfirst⟩) rfl).trans (decodeOperand_of_error ha)

end

end Sys2Proof

namespace Sys2Proof.Machine

/-- Settles O11: the line fails in the decoder, on the first operand token `resolve` rejects, before any effect. -/
theorem operandErrorsInTokenOrder : Obligations.OperandErrorsInTokenOrder := by
  unfold Obligations.OperandErrorsInTokenOrder
  refine fun s line a b => ⟨fun op hop ht ha hr hv => ?_, fun ht => ⟨fun hp hr hv => ?_, fun ha hr hv => ?_⟩,
    fun op hop ht hp hr hv => ?_⟩ <;> apply execLine_of_decode_error
  · exact decode_of_second_error_of_regOperand hop ht ha (operandOf_of_neither hr hv)
  · rw [hp]
    exact decode_of_first_error_of_store ht (operandOf_of_neither hr hv)
  · exact decode_of_second_error_of_store ht ha (operandOf_of_neither hr hv)
  · rw [hp]
    exact decode_of_error_of_operand hop ht (operandOf_of_neither hr hv)

/-! ## Instructions whose own test fails (R215 to R217) -/

/-- The cycle of an effect that fails is the taking of its error (40 R125). -/
theorem exec_of_effect_error {i : Instr} {s : State} {e : ExecError} (h : effectOf i s = .error e) :
    exec i s = .next (raiseError s e) := by
  rw [exec_eq, h, complete_error]

/-- A cycle that takes an error, under either policy (40 R127). -/
theorem exec_of_raiseError {i : Instr} {s : State} {e : ExecError} (h : exec i s = .next (raiseError s e)) :
    (s.params.errPolicy = .halt → exec i s = .next { s with err := some { error := e, pc := s.pc } }) ∧
      (s.params.errPolicy = .skip → exec i s = .next { s with pc := s.pc + 1 }) :=
  ⟨fun hp => by rw [h, raiseError_of_halt hp], fun hp => by rw [h, raiseError_of_skip hp]⟩

theorem exec_store_out_of_range {s : State} {addr : Operand} (data : Operand)
    (h : (resolve s addr).toInt < 0 ∨ (resolve s addr).toInt > 127) :
    exec (.store addr data) s = .next (raiseError s (.memoryOutOfBounds (resolve s addr))) :=
  exec_of_effect_error ((storeEffect_eq_ite addr data s).trans (if_pos h))

theorem exec_load_out_of_range {s : State} (d : Reg) {addr : Operand}
    (h : (resolve s addr).toInt < 0 ∨ (resolve s addr).toInt > 127) :
    exec (.load d addr) s = .next (raiseError s (.memoryOutOfBounds (resolve s addr))) :=
  exec_of_effect_error ((loadEffect_eq_ite d addr s).trans (if_pos h))

theorem exec_pop_empty {s : State} (d : Reg) (h : s.sp + 1 > 127) :
    exec (.pop d) s = .next (raiseError s (.stackUnderflow s.sp)) :=
  exec_of_effect_error ((popEffect_eq_ite d (by omega)).trans (if_pos h))

/-- Settles O21: STORE and LOAD fail the same test of the address with the same error. -/
theorem outOfRangeIndexTakesError : Obligations.OutOfRangeIndexTakesError := by
  unfold Obligations.OutOfRangeIndexTakesError
  intro s d addr data hrange
  obtain ⟨hstore, hstore'⟩ := exec_of_raiseError (exec_store_out_of_range data hrange)
  obtain ⟨hload, hload'⟩ := exec_of_raiseError (exec_load_out_of_range d hrange)
  exact ⟨fun hp => ⟨_, hstore hp, hload hp, rfl, rfl⟩, fun hp => ⟨hstore' hp, hload' hp⟩⟩

/-- Settles O22: a full stack fails PUSH's test, so its cycle is the taking of that error. -/
theorem pushOnFullStackTakesError : Obligations.PushOnFullStackTakesError := by
  unfold Obligations.PushOnFullStackTakesError
  intro s src hfull
  obtain ⟨hhalt, hskip⟩ := exec_of_raiseError (exec_push_full src hfull)
  exact ⟨fun hp => ⟨_, hhalt hp, rfl, rfl⟩, hskip⟩

/-- Settles O23: an empty stack fails POP's test, so its cycle is the taking of that error. -/
theorem popOnEmptyStackTakesError : Obligations.PopOnEmptyStackTakesError := by
  unfold Obligations.PopOnEmptyStackTakesError
  intro s d hempty
  obtain ⟨hhalt, hskip⟩ := exec_of_raiseError (exec_pop_empty d hempty)
  exact ⟨fun hp => ⟨_, hhalt hp, rfl, rfl⟩, hskip⟩

end Sys2Proof.Machine

/-! PROOFS. The decoder against the encoder and the settings (30_encoding R92, 40 R120): the round trip over every
well-formed instruction, and what a decoded line says of its instruction. -/

namespace Sys2Proof

/-! ## The canonical line is read back -/

theorem tokens_encode (i : Instr) : tokens (encode i) = i.opcode.mnemonic :: i.operandTokens := by
  cases i with
  | add d o => exact Laws.EncodedTokens.add d o
  | sub d o => exact Laws.EncodedTokens.sub d o
  | store a o => exact Laws.EncodedTokens.store a o
  | load d o => exact Laws.EncodedTokens.load d o
  | push o => exact Laws.EncodedTokens.push o
  | pop d => exact Laws.EncodedTokens.pop d
  | jmp o => exact Laws.EncodedTokens.jmp o

theorem regOf_name_ne_none (r : Reg) : regOf r.name ≠ none := by simp [regOf_name]

/-- A line that passes the checks decodes to what its operand tokens do. -/
theorem decode_of_checks {check : FirstOperandCheck} {line : Line} {op : Opcode} {t1 : Token} {rest : List Token}
    (ht : tokens line = op.mnemonic :: t1 :: rest) (hfirst : needsRegFirst check op = true → regOf t1 ≠ none)
    (hcount : (t1 :: rest).length = op.arity) : decode check line = dispatchTokens line op (t1 :: rest) := by
  refine decode_eq_dispatchTokens ht ?_ hcount
  cases hneeds : needsRegFirst check op with
  | false => exact .inl ((needsRegFirst_eq_false_iff check op).mp hneeds)
  | true => exact .inr (hfirst hneeds)

/-- Where the setting admits an operand in STORE's, PUSH's or JMP's first place, check 3 (R120) passes its token. -/
theorem checkThree_of_admitted {check : FirstOperandCheck} {op : Opcode} {o : Operand}
    (hop : needsRegFirst .perOpcode op = false) (h : (check == .perOpcode || o.isRegister) = true)
    (hneeds : needsRegFirst check op = true) : regOf o.token ≠ none := by
  cases o with
  | reg r => exact regOf_name_ne_none r
  | lit v =>
    cases check with
    | perOpcode => cases hop.symm.trans hneeds
    | all => cases h

theorem decodeRegOperand_token (mk : Reg → Operand → Instr) (d : Reg) (o : Operand) :
    decodeRegOperand mk d.name o.token = .ok (mk d o) := by
  simp [decodeRegOperand, destOf_name, operandOf_token]

theorem decodeOperands_token (mk : Operand → Operand → Instr) (o p : Operand) :
    decodeOperands mk o.token p.token = .ok (mk o p) := by
  simp [decodeOperands, operandOf_token]

theorem decodeOperand_token (mk : Operand → Instr) (o : Operand) : decodeOperand mk o.token = .ok (mk o) := by
  simp [decodeOperand, operandOf_token]

theorem decodeReg_token (mk : Reg → Instr) (d : Reg) : decodeReg mk d.name = .ok (mk d) := by
  simp [decodeReg, destOf_name]

/-- Settles O4: the canonical line's tokens pass checks 1 to 4 and decode one by one. -/
theorem decodeEncodeRoundTrip : Obligations.DecodeEncodeRoundTrip := by
  unfold Obligations.DecodeEncodeRoundTrip
  intro check i hwf
  have ht := tokens_encode i
  cases i with
  | add d o | sub d o | load d o =>
    exact (decode_of_checks ht (fun _ => regOf_name_ne_none d) rfl).trans (decodeRegOperand_token _ d o)
  | store a o => exact (decode_of_checks ht (checkThree_of_admitted rfl hwf) rfl).trans (decodeOperands_token _ a o)
  | push o | jmp o => exact (decode_of_checks ht (checkThree_of_admitted rfl hwf) rfl).trans (decodeOperand_token _ o)
  | pop d => exact (decode_of_checks ht (fun _ => regOf_name_ne_none d) rfl).trans (decodeReg_token _ d)

/-! ## What a decoded line says of its instruction -/

/-- Everything a line that decodes has passed: the four checks, and the decoding of its operand tokens. -/
theorem decode_eq_ok {check : FirstOperandCheck} {line : Line} {i : Instr} (h : decode check line = .ok i) :
    ∃ op t1 rest, tokens line = op.mnemonic :: t1 :: rest ∧ (needsRegFirst check op = true → regOf t1 ≠ none) ∧
      (t1 :: rest).length = op.arity ∧ dispatchTokens line op (t1 :: rest) = .ok i := by
  by_cases hshort : (tokens line).length < 2
  · cases (decode_of_short hshort).symm.trans h
  obtain ⟨t0, t1, rest, ht⟩ := Machine.exists_tokens_of_not_short hshort
  cases ho : opcodeOf t0 with
  | none => cases (decode_of_unknown ht ho).symm.trans h
  | some op =>
    rw [decode_of_opcode ht ho] at h
    split_ifs at h with hfirst hcount
    refine ⟨op, t1, rest, mnemonic_of_opcodeOf ho ▸ ht, fun hneeds hnone => hfirst ?_, not_not.mp hcount, h⟩
    simp [hneeds, hnone]

theorem decodeRegOperand_eq_ok {mk : Reg → Operand → Instr} {a b : Token} {i : Instr}
    (h : decodeRegOperand mk a b = .ok i) : ∃ d o, i = mk d o := by
  unfold decodeRegOperand at h
  split at h
  · cases h
  split at h <;> cases h
  exact ⟨_, _, rfl⟩

theorem decodeOperands_eq_ok {mk : Operand → Operand → Instr} {a b : Token} {i : Instr}
    (h : decodeOperands mk a b = .ok i) : ∃ o p, operandOf a = .ok o ∧ i = mk o p := by
  unfold decodeOperands at h
  split at h
  · cases h
  next o ho =>
    split at h <;> cases h
    exact ⟨o, _, ho, rfl⟩

theorem decodeOperand_eq_ok {mk : Operand → Instr} {a : Token} {i : Instr} (h : decodeOperand mk a = .ok i) :
    ∃ o, operandOf a = .ok o ∧ i = mk o := by
  unfold decodeOperand at h
  split at h <;> cases h
  next o ho => exact ⟨o, ho, rfl⟩

theorem decodeReg_eq_ok {mk : Reg → Instr} {a : Token} {i : Instr} (h : decodeReg mk a = .ok i) : ∃ d, i = mk d := by
  unfold decodeReg at h
  split at h <;> cases h
  exact ⟨_, rfl⟩

/-- A register's token is decoded to a register. -/
theorem isRegister_of_operandOf {t : Token} {o : Operand} (hr : regOf t ≠ none) (ho : operandOf t = .ok o) :
    o.isRegister = true := by
  obtain ⟨r, hr⟩ := Option.ne_none_iff_exists'.mp hr
  rw [name_of_regOf hr] at ho
  obtain rfl := Except.ok.inj ((operandOf_token (.reg r)).symm.trans ho)
  rfl

/-- A setting that asks no register of STORE, PUSH and JMP is `perOpcode`; otherwise their operand is one. -/
theorem operandAdmitted_of_checkThree {check : FirstOperandCheck} {op : Opcode} {t : Token} {o : Operand}
    (hfirst : needsRegFirst check op = true → regOf t ≠ none) (ho : operandOf t = .ok o) :
    (check == .perOpcode || o.isRegister) = true := by
  cases check with
  | perOpcode => rfl
  | all => exact isRegister_of_operandOf (hfirst rfl) ho

theorem wf_of_dispatchTokens {check : FirstOperandCheck} {line : Line} {op : Opcode} {t1 : Token} {rest : List Token}
    {i : Instr} (hfirst : needsRegFirst check op = true → regOf t1 ≠ none) (hcount : (t1 :: rest).length = op.arity)
    (h : dispatchTokens line op (t1 :: rest) = .ok i) : i.wf check = true := by
  have hrest : rest.length = op.arity - 1 := Nat.eq_sub_of_add_eq hcount
  cases op with
  | add | sub | load =>
    obtain ⟨t2, rfl⟩ := List.length_eq_one_iff.mp hrest
    obtain ⟨d, o, rfl⟩ := decodeRegOperand_eq_ok h
    rfl
  | store =>
    obtain ⟨t2, rfl⟩ := List.length_eq_one_iff.mp hrest
    obtain ⟨o, p, ho, rfl⟩ := decodeOperands_eq_ok h
    exact operandAdmitted_of_checkThree hfirst ho
  | push | jmp =>
    obtain rfl := List.length_eq_zero_iff.mp hrest
    obtain ⟨o, ho, rfl⟩ := decodeOperand_eq_ok h
    exact operandAdmitted_of_checkThree hfirst ho
  | pop =>
    obtain rfl := List.length_eq_zero_iff.mp hrest
    obtain ⟨d, rfl⟩ := decodeReg_eq_ok h
    rfl

/-- `perOpcode` demands a register first of fewer opcodes than either setting. -/
theorem needsRegFirst_of_perOpcode {check : FirstOperandCheck} {op : Opcode}
    (h : needsRegFirst .perOpcode op = true) : needsRegFirst check op = true := by
  cases check with
  | perOpcode => exact h
  | all => rfl

/-- Settles O5: the first operand of STORE, PUSH and JMP has passed check 3, and `perOpcode` checks no more than either
setting. -/
theorem decodedInstructionIsWellFormed : Obligations.DecodedInstructionIsWellFormed := by
  unfold Obligations.DecodedInstructionIsWellFormed
  intro check line i h
  obtain ⟨op, t1, rest, ht, hfirst, hcount, hdispatch⟩ := decode_eq_ok h
  refine ⟨wf_of_dispatchTokens hfirst hcount hdispatch, ?_⟩
  rw [decode_of_checks ht (hfirst ∘ needsRegFirst_of_perOpcode) hcount, hdispatch]

/-- Settles O3: the lines are literal bytes, and the decoder computes. -/
theorem specLinesDecode : Obligations.SpecLinesDecode := by
  unfold Obligations.SpecLinesDecode
  decide

end Sys2Proof

/-! PROOFS. Reset (10_state R36), the canonical memory as data (R29; log 4), and the state behind the surface (R34). -/

namespace Sys2Proof.Machine

/-! ## Reset -/

theorem construct_reg (params : Params) (prog : List Line) (r : Reg) : (State.construct params prog).reg r = 0 := by
  cases r <;> rfl

theorem status_construct_running (params : Params) {prog : List Line} (h : 0 < prog.length) :
    status (State.construct params prog) = .running :=
  status_eq_running.mpr ⟨rfl, Int.natCast_pos.mpr h⟩

theorem status_construct_halted (params : Params) {prog : List Line} (h : prog.length = 0) :
    status (State.construct params prog) = .halted :=
  status_eq_halted.mpr ⟨rfl, (Int.natCast_eq_zero.mpr h).le⟩

/-- Settles O1: the fields are the constructor's own, and `pc = 0` is inside every program that has a line. -/
theorem constructedStateHoldsResetValues : Obligations.ConstructedStateHoldsResetValues := by
  unfold Obligations.ConstructedStateHoldsResetValues
  rintro params prog s rfl
  exact ⟨construct_reg params prog, fun _ => rfl, rfl, rfl, rfl, rfl, rfl, rfl, status_construct_running params,
    status_construct_halted params⟩

theorem construct_inv {params : Params} {prog : List Line} (h : programWf params prog = true) :
    (State.construct params prog).Inv where
  sp_low := (by decide : -1 ≤ spInit)
  sp_high := (by decide : spInit ≤ 127)
  carry_clear := rfl
  mem_wf := rfl
  prog_wf := h
  err_at_pc := nofun
  err_latched := fun _ => rfl

/-- Settles O2: the empty program of `State.reset` is admissible too. -/
theorem resetMeetsInvariant : Obligations.ResetMeetsInvariant := by
  unfold Obligations.ResetMeetsInvariant
  exact ⟨fun _ _ => construct_inv, construct_inv (by decide)⟩

/-! ## Canonical memories (log 4) -/

theorem Memory.wfFrom_cons_iff {lo a : Nat} {v : Word} {m : Memory} :
    Memory.wfFrom lo ((a, v) :: m) = true ↔ lo ≤ a ∧ a < memSize ∧ v ≠ 0 ∧ Memory.wfFrom (a + 1) m = true := by
  simp [Memory.wfFrom, and_assoc]

@[simp] theorem Memory.read_cons_self (a : Nat) (v : Word) (m : Memory) : Memory.read ((a, v) :: m) a = v :=
  if_pos rfl

theorem Memory.read_cons_other {a k : Nat} (h : k ≠ a) (v : Word) (m : Memory) :
    Memory.read ((a, v) :: m) k = Memory.read m k :=
  if_neg h.symm

/-- A canonical memory that reads another value than 0 at `a` does not begin above `a`. -/
theorem Memory.head_le_of_read_ne_zero {lo a b : Nat} {w : Word} {m : Memory}
    (hm : Memory.wfFrom lo ((b, w) :: m) = true) (h : Memory.read ((b, w) :: m) a ≠ 0) : b ≤ a := by
  obtain ⟨-, hb, hw, hrest⟩ := Memory.wfFrom_cons_iff.mp hm
  exact Nat.le_of_not_lt fun hlt => h (Memory.read_below hlt (Memory.wfFrom_cons_iff.mpr ⟨le_rfl, hb, hw, hrest⟩))

/-- Behind equal first cells, memories that read alike read alike. -/
theorem Memory.read_eq_of_cons {a : Nat} {v : Word} {m n : Memory} (hm : Memory.wfFrom (a + 1) m = true)
    (hn : Memory.wfFrom (a + 1) n = true) (h : ∀ k, Memory.read ((a, v) :: m) k = Memory.read ((a, v) :: n) k) (k : Nat) :
    m.read k = n.read k := by
  by_cases hk : k = a
  · rw [Memory.read_below (by omega) hm, Memory.read_below (by omega) hn]
  · rw [← Memory.read_cons_other hk v m, h k, Memory.read_cons_other hk]

/-- Canonical memories are read off cell by cell: the first cell of either is the first of both. -/
theorem Memory.eq_of_read_eq {lo : Nat} {m n : Memory} (hm : Memory.wfFrom lo m = true) (hn : Memory.wfFrom lo n = true)
    (h : ∀ a, m.read a = n.read a) : m = n := by
  induction m generalizing lo n with
  | nil =>
    cases n with
    | nil => rfl
    | cons q n =>
      obtain ⟨-, -, hw, -⟩ := Memory.wfFrom_cons_iff.mp hn
      exact absurd ((Memory.read_cons_self _ _ n).symm.trans (h q.1).symm) hw
  | cons p m ih =>
    obtain ⟨a, v⟩ := p
    obtain ⟨-, -, hv, hrest⟩ := Memory.wfFrom_cons_iff.mp hm
    cases n with
    | nil => exact absurd ((Memory.read_cons_self a v m).symm.trans (h a)) hv
    | cons q n =>
      obtain ⟨b, w⟩ := q
      obtain ⟨-, -, hw, hrest'⟩ := Memory.wfFrom_cons_iff.mp hn
      have hba : b ≤ a := Memory.head_le_of_read_ne_zero hn (by rwa [← h a, Memory.read_cons_self])
      have hab : a ≤ b := Memory.head_le_of_read_ne_zero hm (by rwa [h b, Memory.read_cons_self])
      obtain rfl := Nat.le_antisymm hab hba
      obtain rfl : v = w := by simpa using h a
      rw [ih hrest hrest' (Memory.read_eq_of_cons hrest hrest' h)]

/-- Settles O47: canonical is canonical from index 0 on. -/
theorem canonicalMemoriesAreEqual : Obligations.CanonicalMemoriesAreEqual := by
  unfold Obligations.CanonicalMemoriesAreEqual
  exact fun m n hm hn h => Memory.eq_of_read_eq hm hn h

/-! ## The surface (40 R129, 10_state R34) -/

/-- Canonical memories with one surface read alike: on 0..127 the surface lists them, elsewhere both read 0. -/
theorem cell_eq_of_observe_eq {s t : State} (hs : s.mem.wf = true) (ht : t.mem.wf = true)
    (h : (observe s).mem = (observe t).mem) (a : Nat) : s.cell a = t.cell a := by
  by_cases ha : a < 128
  · exact Option.some.inj ((observe_mem_getElem? s ha).symm.trans (h ▸ observe_mem_getElem? t ha))
  · have hout : memSize ≤ a := Nat.le_of_not_lt ha
    rw [State.cell, State.cell, Memory.read_outside hout hs, Memory.read_outside hout ht]

/-- Settles O49: the surface shows five of the fields themselves, and the canonical memory through its cells. -/
theorem noHiddenState : Obligations.NoHiddenState := by
  unfold Obligations.NoHiddenState
  intro s t hs ht hprog hparams h
  have hmem : s.mem = t.mem :=
    Memory.eq_of_read_eq hs.mem_wf ht.mem_wf (cell_eq_of_observe_eq hs.mem_wf ht.mem_wf (congrArg Surface.mem h))
  exact State.ext_fields (congrArg Surface.x h) hmem (congrArg Surface.pc h) (congrArg Surface.sp h)
    (congrArg Surface.flags h) (congrArg Surface.err h) hprog hparams

end Sys2Proof.Machine

/-! PROOFS. Which errors arise where (60_exceptions R210, R218), and what `Exec` reports of any line (40 R130). -/

namespace Sys2Proof.Machine

/-! ## The codes of the decoder's errors (R211 to R214) -/

section
variable {e : ExecError}

theorem code_of_destOf_error {t : Token} (h : destOf t = .error e) : (errorKind e).code = 3 := by
  unfold destOf at h
  split at h <;> cases h
  rfl

theorem code_of_operandOf_error {t : Token} (h : operandOf t = .error e) : (errorKind e).code = 4 := by
  unfold operandOf at h
  split at h
  · cases h
  split at h <;> cases h
  rfl

theorem code_of_decodeRegOperand_error {mk : Reg → Operand → Instr} {a b : Token}
    (h : decodeRegOperand mk a b = .error e) : (errorKind e).code ≤ 4 := by
  unfold decodeRegOperand at h
  split at h
  next hd =>
    cases h
    exact (code_of_destOf_error hd).trans_le (by decide)
  next =>
    split at h <;> cases h
    next hb => exact (code_of_operandOf_error hb).le

theorem code_of_decodeOperands_error {mk : Operand → Operand → Instr} {a b : Token}
    (h : decodeOperands mk a b = .error e) : (errorKind e).code ≤ 4 := by
  unfold decodeOperands at h
  split at h
  next ha =>
    cases h
    exact (code_of_operandOf_error ha).le
  next =>
    split at h <;> cases h
    next hb => exact (code_of_operandOf_error hb).le

theorem code_of_decodeOperand_error {mk : Operand → Instr} {a : Token} (h : decodeOperand mk a = .error e) :
    (errorKind e).code ≤ 4 := by
  unfold decodeOperand at h
  split at h <;> cases h
  next ha => exact (code_of_operandOf_error ha).le

theorem code_of_decodeReg_error {mk : Reg → Instr} {a : Token} (h : decodeReg mk a = .error e) :
    (errorKind e).code ≤ 4 := by
  unfold decodeReg at h
  split at h <;> cases h
  next ha => exact (code_of_destOf_error ha).trans_le (by decide)

theorem code_of_dispatchTokens_error {line : Line} {op : Opcode} {operands : List Token}
    (h : dispatchTokens line op operands = .error e) : (errorKind e).code ≤ 4 := by
  unfold dispatchTokens at h
  split at h
  · exact code_of_decodeRegOperand_error h
  · exact code_of_decodeRegOperand_error h
  · exact code_of_decodeOperands_error h
  · exact code_of_decodeRegOperand_error h
  · exact code_of_decodeOperand_error h
  · exact code_of_decodeReg_error h
  · exact code_of_decodeOperand_error h
  · cases h
    exact (by decide : 1 ≤ 4)

/-- No line's decoding raises an error of an effect or of the fetch. -/
theorem code_of_decode_error {check : FirstOperandCheck} {line : Line} (h : decode check line = .error e) :
    (errorKind e).code ≤ 4 := by
  by_cases hshort : (tokens line).length < 2
  · cases (decode_of_short hshort).symm.trans h
    exact (by decide : 1 ≤ 4)
  obtain ⟨t0, t1, rest, ht⟩ := exists_tokens_of_not_short hshort
  cases ho : opcodeOf t0 with
  | none =>
    cases (decode_of_unknown ht ho).symm.trans h
    exact (by decide : 2 ≤ 4)
  | some op =>
    rw [decode_of_opcode ht ho] at h
    split_ifs at h
    · cases h
      exact (by decide : 3 ≤ 4)
    · cases h
      exact (by decide : 1 ≤ 4)
    · exact code_of_dispatchTokens_error h

/-! ## The errors of an effect (R215 to R217) -/

theorem memWrite_eq_error {s : State} {a : Int} {v : Word} {own : ExecError} (h : memWrite s a v own = .error e) :
    e = own ∧ (a < 0 ∨ a > 127) := by
  rw [memWrite_eq_ite] at h
  split_ifs at h with hout
  exact ⟨(Except.error.inj h).symm, hout⟩

theorem memRead_eq_error {s : State} {a : Int} {own : ExecError} (h : memRead s a own = .error e) :
    e = own ∧ (a < 0 ∨ a > 127) := by
  rw [memRead_eq_ite] at h
  split_ifs at h with hout
  exact ⟨(Except.error.inj h).symm, hout⟩

/-- Everything an instruction's effect can raise: the bounds error of the arbiter access it makes. -/
theorem effectOf_eq_error {i : Instr} {s : State} (h : effectOf i s = .error e) :
    (∃ index : Word, e = .memoryOutOfBounds index ∧ (index.toInt < 0 ∨ index.toInt > 127) ∧
      (i.opcode = .store ∨ i.opcode = .load)) ∨
    (e = .stackOverflow s.sp ∧ i.opcode = .push) ∨ (e = .stackUnderflow s.sp ∧ i.opcode = .pop) := by
  cases i with
  | add d src | sub d src | jmp target => cases h
  | store dest src =>
    simp only [effectOf, storeEffect] at h
    split at h <;> cases h
    next hw =>
      obtain ⟨rfl, hout⟩ := memWrite_eq_error hw
      exact .inl ⟨resolve s dest, rfl, hout, .inl rfl⟩
  | load d src =>
    simp only [effectOf, loadEffect] at h
    split at h <;> cases h
    next hr =>
      obtain ⟨rfl, hout⟩ := memRead_eq_error hr
      exact .inl ⟨resolve s src, rfl, hout, .inr rfl⟩
  | push src =>
    simp only [effectOf, pushEffect] at h
    split at h <;> cases h
    next hw => exact .inr (.inl ⟨(memWrite_eq_error hw).1, rfl⟩)
  | pop d =>
    simp only [effectOf, popEffect] at h
    split at h <;> cases h
    next hr => exact .inr (.inr ⟨(memRead_eq_error hr).1, rfl⟩)

theorem code_of_effectOf_error {i : Instr} {s : State} (h : effectOf i s = .error e) : (errorKind e).code ≤ 7 := by
  obtain ⟨index, rfl, -⟩ | ⟨rfl, -⟩ | ⟨rfl, -⟩ := effectOf_eq_error h
  · exact (by decide : 5 ≤ 7)
  · exact (by decide : 6 ≤ 7)
  · exact (by decide : 7 ≤ 7)

theorem one_le_code (k : ErrorKind) : 1 ≤ k.code := by cases k <;> decide

/-- `Exec` raises no `PcOutOfRange` (R218). -/
theorem code_of_execLine_error {line : Line} {s : State} (h : execLine line s = .error e) :
    1 ≤ (errorKind e).code ∧ (errorKind e).code ≤ 7 := by
  refine ⟨one_le_code _, ?_⟩
  cases hd : decode s.params.firstOperandCheck line with
  | error e' =>
    cases (execLine_of_decode_error hd).symm.trans h
    exact (code_of_decode_error hd).trans (by decide)
  | ok i => exact code_of_effectOf_error ((execLine_of_decode hd).symm.trans h)

end

/-- Settles O24: an effect raises the error of its one arbiter access, and the decoder's codes are at most 4. -/
theorem errorsAreTheInstructionsOwn : Obligations.ErrorsAreTheInstructionsOwn := by
  unfold Obligations.ErrorsAreTheInstructionsOwn
  exact ⟨fun _ _ _ => effectOf_eq_error, fun _ _ _ _ => code_of_execLine_error⟩

/-! ## `Exec` of any line (40 R130) -/

theorem execReturn_of_ok {line : Line} {s t : State} {jumped : Bool} (h : execLine line s = .ok jumped t) :
    execReturn line s = .ok jumped := by
  simp [execReturn, h]

theorem execReturn_of_error {line : Line} {s : State} {e : ExecError} (h : execLine line s = .error e) :
    execReturn line s = .error { error := e, pc := s.pc } := by
  simp [execReturn, h]

/-- `Exec` returns without an error only where the line's effect succeeds. -/
theorem execReturn_eq_ok {line : Line} {s : State} {jumped : Bool} (h : execReturn line s = .ok jumped) :
    ∃ t, execLine line s = .ok jumped t := by
  obtain ⟨j, t, hl, hr⟩ | ⟨e, -, hr⟩ := execReturn_cases line s <;> cases hr.symm.trans h
  exact ⟨t, hl⟩

/-- `Exec` returns an error only as the record of the one it raised. -/
theorem execReturn_eq_error {line : Line} {s : State} {r : ErrorRecord} (h : execReturn line s = .error r) :
    execLine line s = .error r.error ∧ r.pc = s.pc := by
  obtain ⟨j, t, -, hr⟩ | ⟨e, hl, hr⟩ := execReturn_cases line s <;> cases hr.symm.trans h
  exact ⟨hl, rfl⟩

/-- Which error `Exec` raises of a line, and whether it jumps, depends on neither `pc` nor the program. -/
theorem execLine_setPc_setProg (line : Line) (s : State) (pc : Word) (prog : List Line) :
    (∃ e, execLine line s = .error e ∧ execLine line ((s.setPc pc).setProg prog) = .error e) ∨
      (∃ jumped t u, execLine line s = .ok jumped t ∧
        execLine line ((s.setPc pc).setProg prog) = .ok jumped u) := by
  rw [execLine_eq_runDecoded, execLine_eq_runDecoded, State.setProg_params, State.setPc_params]
  cases decode s.params.firstOperandCheck line with
  | error e => exact .inl ⟨e, rfl, rfl⟩
  | ok i => exact effectOf_setPc_setProg i s pc prog

/-- Settles O51: `Exec` does not read `pc` but for the record, and a step's cycle is `Exec` of the line at `pc`. -/
theorem execReportsCurrentPc : Obligations.ExecReportsCurrentPc := by
  unfold Obligations.ExecReportsCurrentPc
  refine ⟨fun s line r h => ?_, fun s line pc prog => ?_, fun s line hs hpc hl => ?_⟩
  · obtain ⟨hline, hrecord⟩ := execReturn_eq_error h
    exact ⟨hline, hrecord, code_of_execLine_error hline⟩
  · obtain ⟨e, he, he'⟩ | ⟨jumped, t, u, ht, hu⟩ := execLine_setPc_setProg line s pc prog
    · rw [execReturn_of_error he]
      refine ⟨nofun, fun r hr => ?_⟩
      obtain rfl := ExecReturn.error.inj hr
      exact execReturn_of_error he'
    · rw [execReturn_of_ok ht]
      refine ⟨fun j hj => ?_, nofun⟩
      obtain rfl := ExecReturn.ok.inj hj
      exact execReturn_of_ok hu
  · have hcycle := cycleResult_of_line hpc hl
    refine ⟨fun jumped h => ?_, fun r h => ?_⟩
    · obtain ⟨t, ht⟩ := execReturn_eq_ok h
      exact stepReturn_of_ok hs (hcycle.trans ht)
    · obtain ⟨hline, hrecord⟩ := execReturn_eq_error h
      rw [stepReturn_of_error hs (hcycle.trans hline), ← hrecord]

end Sys2Proof.Machine

/-! PROOFS. The step as a whole (10_state R20 to R31, 40 R111 to R113): where there is none, what it returns, and what it
leaves unchanged. -/

namespace Sys2Proof.Machine

/-! ## Where no step exists (40 R112; log 5) -/

theorem step_faulted {s : State} (h : status s = .faulted) : step s = .fault .coreFaulted := by
  simp [step, h]

/-- Settles O30: one answer per status, and the three differ. -/
theorem stepStopsByNameOtherwise : Obligations.StepStopsByNameOtherwise := by
  unfold Obligations.StepStopsByNameOtherwise
  intro s
  cases hs : status s with
  | running => simp [step_running hs]
  | halted => simp [step_halted hs]
  | faulted => simp [step_faulted hs]

/-- Settles O31: the cycle of a RUNNING core is `Exec` of the fetched line. -/
theorem stepRunsDecodedInstruction : Obligations.StepRunsDecodedInstruction := by
  unfold Obligations.StepRunsDecodedInstruction
  intro s line i herr hpc hl hlt hd
  have hs : status s = .running := status_eq_running.mpr ⟨herr, hlt⟩
  rw [step_running hs, cycleResult_of_line hpc hl, execLine_of_decode hd, exec_eq]

/-! ## What `Step` returns (40 R111; log 6) -/

/-- A cycle that succeeds leaves the latch, the program and the parameters. -/
theorem cycleResult_ok_fixed {s t : State} {jumped : Bool} (h : cycleResult s = .ok jumped t) :
    t.err = s.err ∧ t.prog = s.prog ∧ t.params = s.params := by
  rw [cycleResult] at h
  split at h
  · cases h
  · exact effectOf_ok_fixed h

theorem stepReturn_eq_refused_iff {s : State} {st : Status} :
    stepReturn s = .refused st ↔ st ≠ .running ∧ status s = st := by
  cases hs : status s with
  | running =>
    refine ⟨fun h => ?_, fun ⟨hne, heq⟩ => absurd heq.symm hne⟩
    cases hc : cycleResult s with
    | ok jumped t => cases (stepReturn_of_ok hs hc).symm.trans h
    | error e => cases (stepReturn_of_error hs hc).symm.trans h
  | halted =>
    have hr : stepReturn s = .refused .halted := by simp [stepReturn, hs]
    rw [hr, StepReturn.refused.injEq]
    exact ⟨fun h => ⟨h ▸ nofun, h⟩, And.right⟩
  | faulted =>
    have hr : stepReturn s = .refused .faulted := by simp [stepReturn, hs]
    rw [hr, StepReturn.refused.injEq]
    exact ⟨fun h => ⟨h ▸ nofun, h⟩, And.right⟩

/-- `Step` returns `Ok` only where its cycle succeeds. -/
theorem stepReturn_eq_ok {s : State} (h : stepReturn s = .ok) :
    status s = .running ∧ ∃ jumped t, cycleResult s = .ok jumped t := by
  cases hs : status s with
  | halted => simp [stepReturn, hs] at h
  | faulted => simp [stepReturn, hs] at h
  | running =>
    cases hc : cycleResult s with
    | ok jumped t => exact ⟨rfl, jumped, t, rfl⟩
    | error e => cases (stepReturn_of_error hs hc).symm.trans h

/-- Settles O36: `stepReturn` reports the cycle's result, which `step` completes. -/
theorem stepReturnAgreesWithStep : Obligations.StepReturnAgreesWithStep := by
  unfold Obligations.StepReturnAgreesWithStep
  refine fun s => ⟨fun st => stepReturn_eq_refused_iff, fun h => ?_, fun r h hp => ?_⟩
  · obtain ⟨hs, jumped, t, hc⟩ := stepReturn_eq_ok h
    obtain ⟨herr, -⟩ := status_eq_running.mp hs
    obtain ⟨-, -, -, -, herr', -⟩ := complete_ok_fields s t jumped
    obtain ⟨herr'', -⟩ := cycleResult_ok_fixed hc
    exact ⟨_, step_running hs, hc ▸ herr'.trans (herr''.trans herr)⟩
  · obtain ⟨hs, e, he, rfl⟩ := stepReturn_eq_error h
    exact ⟨_, (step_of_error hs he).1 hp, rfl⟩

/-! ## The program, the parameters and the latch (10_state R20, R30, R31) -/

/-- Settles O45: taking an error keeps both, and so does committing a cycle. -/
theorem programAndParametersFixed : Obligations.ProgramAndParametersFixed := by
  unfold Obligations.ProgramAndParametersFixed
  intro s t h
  obtain ⟨-, rfl⟩ := step_next h
  cases hc : cycleResult s with
  | error e =>
    obtain ⟨-, -, -, -, hfixed⟩ := raiseError_fields s e
    exact hfixed
  | ok jumped u =>
    obtain ⟨-, -, -, -, -, hprog, hparams⟩ := complete_ok_fields s u jumped
    obtain ⟨-, hprog', hparams'⟩ := cycleResult_ok_fixed hc
    exact ⟨hprog.trans hprog', hparams.trans hparams'⟩

/-- Everything a step can do to the latch: leave it, or latch an error of the line at `pc`. -/
theorem step_err_cases {s t : State} (h : step s = .next t) :
    t.err = s.err ∨ ∃ e, t = s.setErr (some { error := e, pc := s.pc }) := by
  obtain ⟨-, rfl⟩ := step_next h
  cases hc : cycleResult s with
  | error e =>
    rw [complete_error]
    obtain ⟨-, hr⟩ | ⟨-, hr⟩ := raiseError_cases s e
    · exact .inr ⟨e, hr⟩
    · exact .inl (by rw [hr, State.setPc_err])
  | ok jumped u =>
    obtain ⟨-, -, -, -, herr, -⟩ := complete_ok_fields s u jumped
    obtain ⟨herr', -⟩ := cycleResult_ok_fixed hc
    exact .inl (herr.trans herr')

/-- Settles O46: a step needs an empty latch, so none follows one that latches an error. -/
theorem errorLatchWrittenOnce : Obligations.ErrorLatchWrittenOnce := by
  unfold Obligations.ErrorLatchWrittenOnce
  intro s t h
  obtain ⟨herr, -⟩ := status_eq_running.mp (step_next h).1
  refine ⟨herr, fun hset => ?_⟩
  obtain hsame | ⟨e, rfl⟩ := step_err_cases h
  · exact absurd (hsame.trans herr) hset
  · refine ⟨rfl, ⟨e, rfl⟩, ?_⟩
    rw [exists_step_iff, status_eq_faulted.mpr hset]
    decide

/-! ## The increment of `pc` (10_state R24) -/

theorem toInt_add_one {w : Word} (h : w.toInt < intMax) : (w + 1).toInt = w.toInt + 1 := by
  obtain ⟨hlow, -⟩ := toInt_range w
  have hone : w + 1 = wrap (w.toInt + 1) := by simp [wrap, BitVec.ofInt_add]
  rw [hone, toInt_wrap_of_range ⟨by omega, h⟩]

theorem prog_length_le_intMax {params : Params} {prog : List Line} (h : programWf params prog = true) :
    (prog.length : Int) ≤ intMax :=
  of_decide_eq_true (Bool.and_eq_true_iff.mp h).1

/-- Settles O38: a RUNNING core's `pc` is below the program's length, which is a word's. -/
theorem pcIncrementNeverWraps : Obligations.PcIncrementNeverWraps := by
  unfold Obligations.PcIncrementNeverWraps
  intro s t hi h hpc
  obtain ⟨-, hlt⟩ := status_eq_running.mp (step_next h).1
  rw [hpc, toInt_add_one (hlt.trans_le (prog_length_le_intMax hi.prog_wf))]

/-! ## Registers (10_state R22, 41 R154) -/

/-- The register an instruction writes, if it writes one. -/
def writtenReg : Instr → Option Reg
  | .add d _ | .sub d _ | .load d _ | .pop d => some d
  | .store _ _ | .push _ | .jmp _ => none

theorem writtenReg_eq_some {i : Instr} {q : Reg} (h : writtenReg i = some q) :
    (∃ src, i = .add q src) ∨ (∃ src, i = .sub q src) ∨ (∃ src, i = .load q src) ∨ i = .pop q := by
  cases i with
  | store _ _ | push _ | jmp _ => cases h
  | add d src =>
    obtain rfl := Option.some.inj h
    exact .inl ⟨src, rfl⟩
  | sub d src =>
    obtain rfl := Option.some.inj h
    exact .inr (.inl ⟨src, rfl⟩)
  | load d src =>
    obtain rfl := Option.some.inj h
    exact .inr (.inr (.inl ⟨src, rfl⟩))
  | pop d =>
    obtain rfl := Option.some.inj h
    exact .inr (.inr (.inr rfl))

theorem memWrite_ok_reg {s t : State} {a : Int} {v : Word} {e : ExecError} (h : memWrite s a v e = .ok t) (q : Reg) :
    t.reg q = s.reg q := by
  obtain ⟨k, -, -, rfl⟩ := memWrite_ok_eq_setCell h
  exact State.setCell_reg s k v q

theorem effectOf_ok_reg {i : Instr} {s t : State} {jumped : Bool} {q : Reg} (hq : writtenReg i ≠ some q)
    (h : effectOf i s = .ok jumped t) : t.reg q = s.reg q := by
  cases i with
  | add d src | sub d src =>
    cases h
    exact writeResult_reg_other s (fun hqd => hq (congrArg some hqd.symm)) _
  | load d src =>
    simp only [effectOf, loadEffect] at h
    split at h <;> cases h
    exact RegFile.get_set_other s.x (fun hqd => hq (congrArg some hqd.symm)) _
  | pop d =>
    simp only [effectOf, popEffect] at h
    split at h <;> cases h
    exact RegFile.get_set_other s.x (fun hqd => hq (congrArg some hqd.symm)) _
  | store dest src | push src =>
    simp only [effectOf, storeEffect, pushEffect] at h
    split at h <;> cases h
    next hw => exact memWrite_ok_reg hw q
  | jmp target =>
    cases h
    rfl

theorem reg_eq_of_x_eq {s t : State} (h : t.x = s.x) (q : Reg) : t.reg q = s.reg q := by
  rw [State.reg, h, State.reg]

/-- The cycle of an instruction changes no register but its destination. -/
theorem exec_reg {i : Instr} {s t : State} {q : Reg} (hq : writtenReg i ≠ some q) (h : exec i s = .next t) :
    t.reg q = s.reg q := by
  obtain ⟨e, -, rfl⟩ | ⟨jumped, u, hu, rfl⟩ := exec_next h
  · obtain ⟨hx, -⟩ := raiseError_fields s e
    exact reg_eq_of_x_eq hx q
  · obtain ⟨hx, -⟩ := complete_ok_fields s u jumped
    exact (reg_eq_of_x_eq hx q).trans (effectOf_ok_reg hq hu)

/-- Settles O44: a register that changed is the one the instruction writes. -/
theorem onlyDestinationRegisterWritten : Obligations.OnlyDestinationRegisterWritten := by
  unfold Obligations.OnlyDestinationRegisterWritten
  exact fun s t i h q hne => writtenReg_eq_some (not_not.mp fun hq => hne (exec_reg hq h))

/-- An operand that does not name `d` keeps its value when `d` is written. -/
theorem resolve_writeResult {d : Reg} {n : Operand} (hn : n ≠ .reg d) (s : State) (r pc : Word) :
    resolve ((writeResult s d r).setPc pc) n = resolve s n := by
  cases n with
  | lit v => rfl
  | reg q => exact writeResult_reg_other s (fun hqd => hn (congrArg Operand.reg hqd)) r

theorem aluSub_aluAdd (a b : Word) : aluSub (aluAdd a b) b = a := by
  rw [aluAdd_eq, aluSub_eq, BitVec.add_sub_cancel]

/-- Settles O25: both cycles write `d` alone, and in words the difference takes the sum back. -/
theorem addThenSubRestoresRegister : Obligations.AddThenSubRestoresRegister := by
  unfold Obligations.AddThenSubRestoresRegister
  intro s d n hn
  refine ⟨_, _, exec_add d n s, exec_sub d n _, fun q => ?_⟩
  rw [State.setPc_reg]
  by_cases hq : q = d
  · subst hq
    rw [writeResult_reg_self, resolve_writeResult hn, State.setPc_reg, writeResult_reg_self, aluSub_aluAdd]
  · rw [writeResult_reg_other _ hq, State.setPc_reg, writeResult_reg_other _ hq]

/-! ## The one cell a step can change (20_memory R53) -/

theorem leavesCell_of_other {i : Instr} (hstore : i.opcode ≠ .store) (hpush : i.opcode ≠ .push) (a : Int) (s : State) :
    leavesCell a s i := by
  cases i with
  | store dest src => exact absurd rfl hstore
  | push src => exact absurd rfl hpush
  | add _ _ | sub _ _ | load _ _ | pop _ | jmp _ => trivial

theorem leavesCell_of_addresses {i : Instr} {a : Int} {s : State}
    (hstore : ∀ dest src, i = .store dest src → a ≠ (resolve s dest).toInt)
    (hpush : ∀ src, i = .push src → a ≠ s.sp) : leavesCell a s i := by
  cases i with
  | store dest src => exact (hstore dest src rfl).symm
  | push src => exact (hpush src rfl).symm
  | add _ _ | sub _ _ | load _ _ | pop _ | jmp _ => trivial

/-- An instruction other than STORE and PUSH leaves the memory itself, canonical or not. -/
theorem exec_mem_of_other {i : Instr} {s t : State} (hstore : i.opcode ≠ .store) (hpush : i.opcode ≠ .push)
    (h : exec i s = .next t) : t.mem = s.mem := by
  obtain hmem | ⟨k, -, v, hk, -⟩ := exec_mem_cases h
  · exact hmem
  · exact absurd (leavesCell_of_other hstore hpush k s) hk

theorem exec_of_fetchDecode {s t : State} {i : Instr} (h : step s = .next t) (hd : fetchDecode s = .ok i) :
    exec i s = .next t := by
  obtain ⟨e, he, -⟩ | ⟨j, hj, hexec⟩ := step_next_cases h
  · cases he.symm.trans hd
  · obtain rfl := Except.ok.inj (hj.symm.trans hd)
    exact hexec

theorem step_mem_wf {s t : State} (hm : s.mem.wf = true) (h : step s = .next t) : t.mem.wf = true := by
  obtain ⟨e, -, rfl⟩ | ⟨i, -, hexec⟩ := step_next_cases h
  · obtain ⟨-, hmem, -⟩ := raiseError_fields s e
    exact hmem ▸ hm
  · exact exec_mem_wf hm hexec

/-- A step that returns an error leaves the memory (40 R125). -/
theorem step_mem_of_error {s t : State} {r : ErrorRecord} (hr : stepReturn s = .error r) (h : step s = .next t) :
    t.mem = s.mem := by
  obtain ⟨hs, e, he, -⟩ := stepReturn_eq_error hr
  obtain ⟨-, rfl⟩ := step_next h
  obtain ⟨-, hmem, -⟩ := raiseError_fields s e
  rw [he, complete_error, hmem]

theorem cell_outside {s : State} (hm : s.mem.wf = true) {a : Nat} (ha : 128 ≤ a) : s.cell a = 0 :=
  Memory.read_outside ha hm

/-- Settles O43: the cell an instruction does not leave alone is the one it addresses, and a canonical memory lists none from
128 on. -/
theorem stepChangesOneCellAtMost : Obligations.StepChangesOneCellAtMost := by
  unfold Obligations.StepChangesOneCellAtMost
  refine ⟨fun s t hm h => ⟨fun dest src hd a ha => ?_, fun src hd a ha => ?_, fun i hd hstore hpush a => ?_,
    fun r hr a => ?_, fun a ha => ?_⟩, fun s t i hm h a hstore hpush => ?_, fun s t i hstore hpush h a => ?_⟩
  · exact exec_cell_of_leavesCell hm (exec_of_fetchDecode h hd) (i := .store dest src) ha.symm
  · exact exec_cell_of_leavesCell hm (exec_of_fetchDecode h hd) (i := .push src) ha.symm
  · exact congrArg (Memory.read · a) (exec_mem_of_other hstore hpush (exec_of_fetchDecode h hd))
  · exact congrArg (Memory.read · a) (step_mem_of_error hr h)
  · rw [cell_outside (step_mem_wf hm h) ha, cell_outside hm ha]
  · exact exec_cell_of_leavesCell hm h (leavesCell_of_addresses hstore hpush)
  · exact congrArg (Memory.read · a) (exec_mem_of_other hstore hpush h)

/-! ## The host's placement of a line (log 9, log 10) -/

theorem placeIndex_toInt_nonneg (s : State) : 0 ≤ (placeIndex s).toInt := by
  unfold placeIndex
  split
  · next h => exact h.1
  · decide

theorem placeLine_getElem? (prog : List Line) (p : Nat) (line : Line) : (placeLine prog p line)[p]? = some line := by
  unfold placeLine
  split
  · next h => exact List.getElem?_set_self h
  · next h => simp [List.getElem?_append_right (Nat.le_of_not_lt h)]

theorem decode_of_decodeTableWord {nbits w : Nat} {i : Instr} (h : decodeTableWord nbits w = some i) :
    decode .perOpcode (tableLine nbits w) = .ok i := by
  unfold decodeTableWord at h
  split at h <;> cases h
  next hd => exact hd

theorem toInt_lt_of_getElem?_toNat {w : Word} {prog : List Line} {line : Line} (hl : prog[w.toNat]? = some line) :
    w.toInt < prog.length := by
  obtain ⟨hlt, -⟩ := List.getElem?_eq_some_iff.mp hl
  rw [BitVec.toInt_eq_toNat_cond]
  split <;> omega

/-- Settles O50: the placed line stands at the `pc` the placement sets, so the next step runs what it decodes to. -/
theorem placedWordRunsNext : Obligations.PlacedWordRunsNext := by
  unfold Obligations.PlacedWordRunsNext
  intro s nbits w i hcheck hd
  have hl : (s.withFetchWord nbits w).prog[(s.withFetchWord nbits w).pc.toNat]? = some (tableLine nbits w) :=
    placeLine_getElem? s.prog (placeIndex s).toNat (tableLine nbits w)
  have hcheck' : (s.withFetchWord nbits w).params.firstOperandCheck = .perOpcode := hcheck
  exact stepRunsDecodedInstruction (s.withFetchWord nbits w) (tableLine nbits w) i rfl (placeIndex_toInt_nonneg s) hl
    (toInt_lt_of_getElem?_toNat hl) (hcheck' ▸ decode_of_decodeTableWord hd)

end Sys2Proof.Machine
